-- ==== Sys2Proof/Word.lean ====
section
/-! DEFINITION. The machine's words and byte strings as types (00_scope.md R12, R14). -/

namespace Sys2Proof

/-- A byte, 0 to 255 (00_scope.md R12). -/
abbrev Byte := BitVec 8

/-- A 32-bit register or command word (00_scope.md R14, 30_encoding.md R100). -/
abbrev Word := BitVec 32

/-- A byte address of the host bus, the port `h_addr` (20_memory.md R70, R72). -/
abbrev Addr := BitVec 18

/-- A byte string of length exactly 8: a half of a block (00_scope.md R12). -/
abbrev B8 := Vector Byte 8

/-- A byte string of length exactly 16: a block, a subkey or an IV (00_scope.md R12). -/
abbrev B16 := Vector Byte 16

/-- The string `0^8`. -/
abbrev B8.zero : B8 := Vector.replicate 8 0

/-- The string `0^16`. -/
abbrev B16.zero : B16 := Vector.replicate 16 0

end Sys2Proof
end

