-- ==== Sys2Proof/Syntax.lean ====
section
/-! DEFINITION. The commands of CORE, one constructor for each row of spec/opcode_table.json, and the
fields of the one command format `C` (30_encoding.md R101, R104). -/

namespace Sys2Proof

/-- A decoded command. A command word carries no operand but `IVSRC` (30_encoding.md R102). -/
inductive Instr where
  /-- KEY_INIT: build the context (40_key_schedule.md R131). -/
  | keyInit
  /-- BLK_ENC: encrypt one block (41_block_primitive.md R160). -/
  | blkEnc
  /-- BLK_DEC: decrypt one block (41_block_primitive.md R161). -/
  | blkDec
  /-- CBC_ENC: encrypt a message; `ivsrc` true means the IV is the `IV` register's (42_cbc_mode.md R182). -/
  | cbcEnc (ivsrc : Bool)
  /-- CBC_DEC: decrypt an envelope (42_cbc_mode.md R186). -/
  | cbcDec
  /-- PAD: pad a buffer (43_padding_codec.md R210). -/
  | pad
  /-- UNPAD: check and strip padding (43_padding_codec.md R212). -/
  | unpad
  /-- WIPE: zero-fill the buffers (44_housekeeping.md R222). -/
  | wipe
  /-- ZEROIZE: dispose of the context and zero-fill everything (44_housekeeping.md R224). -/
  | zeroize
  deriving DecidableEq, Repr

/-- The fields of a command word (30_encoding.md R101). -/
structure CommandFields where
  /-- Bits 7 to 0. -/
  opcode : BitVec 8
  /-- Bit 8. -/
  ivsrc : Bool
  /-- Bits 31 to 9. -/
  reserved : BitVec 23
  deriving DecidableEq, Repr

/-- Why a command word names no operation (30_encoding.md R105, R106). -/
inductive Illegal where
  /-- One of bits 31 to 9 is 1. -/
  | reservedBits
  /-- `IVSRC` is 1 and the opcode is not CBC_ENC's. -/
  | ivsrcNotAllowed
  /-- The opcode is 0x00 or 0x0A to 0xFF. -/
  | unknownOpcode
  deriving DecidableEq, Repr

/-- The fields a command is written with (30_encoding.md R104). -/
def Instr.fields : Instr → CommandFields
  | .keyInit => ⟨0x01, false, 0⟩
  | .blkEnc => ⟨0x02, false, 0⟩
  | .blkDec => ⟨0x03, false, 0⟩
  | .cbcEnc ivsrc => ⟨0x04, ivsrc, 0⟩
  | .cbcDec => ⟨0x05, false, 0⟩
  | .pad => ⟨0x06, false, 0⟩
  | .unpad => ⟨0x07, false, 0⟩
  | .wipe => ⟨0x08, false, 0⟩
  | .zeroize => ⟨0x09, false, 0⟩

end Sys2Proof
end

