-- ==== Sys2Proof/WellFormed.lean ====
section
/-! DEFINITION. Which fields make a legal command (30_encoding.md R101, R105, R106). A command has no
operand, so every term of `Instr` is well-formed; what can be ill-formed is the fields of a word. -/

namespace Sys2Proof

/-- The reserved bits are 0 (30_encoding.md R106). -/
def CommandFields.reservedZero (f : CommandFields) : Bool := f.reserved == 0

/-- `IVSRC` is 1 only beside the opcode of CBC_ENC (30_encoding.md R106). -/
def CommandFields.ivsrcAllowed (f : CommandFields) : Bool := !f.ivsrc || f.opcode == 0x04

/-- The opcode is 0x01 to 0x09 (30_encoding.md R105). -/
def CommandFields.opcodeNamed (f : CommandFields) : Bool := decide (0x01 ≤ f.opcode ∧ f.opcode ≤ 0x09)

/-- All three checks hold. -/
def CommandFields.wellFormed (f : CommandFields) : Bool :=
  f.reservedZero && f.ivsrcAllowed && f.opcodeNamed

/-- A command is well-formed when the fields it is written with are. -/
def Instr.wellFormed (i : Instr) : Bool := i.fields.wellFormed

end Sys2Proof
end

