-- ==== Sys2Proof/Decode.lean ====
section
/-! DEFINITION. Decoding a command word, and encoding a command (30_encoding.md R101, R104 to R107).
CORE fetches no instruction from memory: the word is taken from the bus whole (20_memory.md R93), so the
decoder reads one 32-bit word. -/

namespace Sys2Proof

/-- `OPCODE`, bits 7 to 0 (30_encoding.md R101). -/
def opcodeOf (w : Word) : BitVec 8 := w.extractLsb' 0 8

/-- `IVSRC`, bit 8 (30_encoding.md R101). -/
def ivsrcOf (w : Word) : Bool := w.getLsbD 8

/-- The reserved bits 31 to 9 (30_encoding.md R101). -/
def reservedOf (w : Word) : BitVec 23 := w.extractLsb' 9 23

/-- The fields of a word. -/
def fieldsOf (w : Word) : CommandFields := ⟨opcodeOf w, ivsrcOf w, reservedOf w⟩

/-- The operation an opcode names, with the word's `IVSRC` for CBC_ENC (30_encoding.md R104, R105). -/
def decodeOpcode (op : BitVec 8) (ivsrc : Bool) : Except Illegal Instr :=
  if op = 0x01 then .ok .keyInit
  else if op = 0x02 then .ok .blkEnc
  else if op = 0x03 then .ok .blkDec
  else if op = 0x04 then .ok (.cbcEnc ivsrc)
  else if op = 0x05 then .ok .cbcDec
  else if op = 0x06 then .ok .pad
  else if op = 0x07 then .ok .unpad
  else if op = 0x08 then .ok .wipe
  else if op = 0x09 then .ok .zeroize
  else .error .unknownOpcode

/-- `Decode` (30_encoding.md R107): total on every 32-bit word. -/
def decode (w : Word) : Except Illegal Instr :=
  if reservedOf w ≠ 0 then .error .reservedBits
  else if ivsrcOf w ∧ opcodeOf w ≠ 0x04 then .error .ivsrcNotAllowed
  else decodeOpcode (opcodeOf w) (ivsrcOf w)

/-- The word with given fields, most significant bit first as 30_encoding.md R101 writes it. -/
def packFields (f : CommandFields) : Word := f.reserved ++ BitVec.ofBool f.ivsrc ++ f.opcode

/-- The command word of a command (30_encoding.md R104). -/
def encode (i : Instr) : Word := packFields i.fields

/-- The column `match` of 30_encoding.md R104 and spec/opcode_table.json. -/
def tableMatch : Instr → Word
  | .keyInit => 0x00000001
  | .blkEnc => 0x00000002
  | .blkDec => 0x00000003
  | .cbcEnc _ => 0x00000004
  | .cbcDec => 0x00000005
  | .pad => 0x00000006
  | .unpad => 0x00000007
  | .wipe => 0x00000008
  | .zeroize => 0x00000009

/-- The column `mask` of 30_encoding.md R104 and spec/opcode_table.json. -/
def tableMask : Instr → Word
  | .keyInit => 0xFFFFFFFF
  | .blkEnc => 0xFFFFFFFF
  | .blkDec => 0xFFFFFFFF
  | .cbcEnc _ => 0xFFFFFEFF
  | .cbcDec => 0xFFFFFFFF
  | .pad => 0xFFFFFFFF
  | .unpad => 0xFFFFFFFF
  | .wipe => 0xFFFFFFFF
  | .zeroize => 0xFFFFFFFF

/-- What the decoder reads from the table's bits of an instruction: the command word whose bits are
`w`, with the bits above `nbits` zero. -/
def decodeTableWord (nbits w : Nat) : Option Instr :=
  (decode (BitVec.ofNat 32 (w % 2 ^ nbits))).toOption

end Sys2Proof
end

