-- ==== Sys2Proof/Machine/Bytes.lean ====
section
/-! DEFINITION. Byte strings, blocks and the byte order of words (00_scope.md R12, 20_memory.md R76, R78,
41_block_primitive.md R150). -/

namespace Sys2Proof.Machine

open Sys2Proof

/-- `x xor y` for two strings of one length, byte by byte (00_scope.md R12). -/
def xorBytes {n : Nat} (x y : Vector Byte n) : Vector Byte n :=
  Vector.ofFn fun k => x[k.val] ^^^ y[k.val]

/-- `L`, the bytes at block offsets 0 to 7 (41_block_primitive.md R150). -/
def leftHalf (b : B16) : B8 := Vector.ofFn fun k => b[k.val]

/-- `R`, the bytes at block offsets 8 to 15 (41_block_primitive.md R150). -/
def rightHalf (b : B16) : B8 := Vector.ofFn fun k => b[k.val + 8]

/-- `L || R` (41_block_primitive.md R150). -/
def joinHalves (l r : B8) : B16 :=
  Vector.ofFn fun k => if h : k.val < 8 then l[k.val] else r[k.val - 8]

/-- The slice `s[a..b)` (00_scope.md R12). -/
def slice (s : List Byte) (a b : Nat) : List Byte := (s.drop a).take (b - a)

/-- The 16 bytes `s[a..a+16)` as a block. -/
def blockAt (s : List Byte) (a : Nat) : B16 := Vector.ofFn fun k => s.getD (a + k.val) 0

/-- The whole blocks of a string, in order: block `j` is `s[16j..16j+16)` (42_cbc_mode.md R168, R170). -/
def blocks (s : List Byte) : List B16 :=
  (List.range (s.length / 16)).map fun j => blockAt s (16 * j)

/-- The concatenation of blocks. -/
def joinBlocks : List B16 → List Byte
  | [] => []
  | b :: bs => b.toList ++ joinBlocks bs

/-- Byte `k` of a word: bits `8k+7` to `8k` (20_memory.md R76). -/
def laneOf (w : Word) (k : Nat) : Byte := w.extractLsb' (8 * k) 8

/-- The word whose lanes 0 to 3 are given (20_memory.md R76). -/
def wordOfLanes (b0 b1 b2 b3 : Byte) : Word := b3 ++ b2 ++ b1 ++ b0

/-- The four bytes of a word, lowest offset first (20_memory.md R76). -/
def lanesOfWord (w : Word) : List Byte := [laneOf w 0, laneOf w 1, laneOf w 2, laneOf w 3]

/-- The 16 bytes on `ent_data`: byte `k` is bits `8k+7` to `8k` (20_memory.md R78). -/
def blockOfEntData (d : BitVec 128) : B16 := Vector.ofFn fun k => d.extractLsb' (8 * k.val) 8

end Sys2Proof.Machine
end

