-- ==== Sys2Proof/Config.lean ====
section
/-! DEFINITION. What an implementation of CORE fixes and the spec leaves open (00_scope.md R8 to R10),
and the constants the source fixes (00_scope.md R7). -/

namespace Sys2Proof

/-- The round function, an open parameter (00_scope.md R8): total, a function of its two arguments
alone, and nothing else is known of it. -/
opaque Config.F : B8 → B16 → B8

/-- The key schedule, an open parameter (00_scope.md R9): for a key and a round count exactly that many
subkeys of 16 bytes. Only keys of 1 to 64 bytes and 1 to 32 rounds are ever given to it. -/
opaque Config.KS : List Byte → (rounds : Nat) → Vector B16 rounds

/-- Which of the 4094 legal capacities this implementation has (00_scope.md R10). -/
opaque Config.capUnits : Fin 4094

/-- `BUF_CAP`, the capacity in bytes of IBUF and of OBUF: a multiple of 16 from 48 to 65536, any one of
them (00_scope.md R10). -/
def Config.bufCap : Nat := 16 * Config.capUnits.val + 48

/-- `CBC_BS`, the block size the chaining mode gives the padding codec (00_scope.md R7). -/
abbrev Config.cbcBs : Nat := 16

/-- `MAX_ROUNDS` (00_scope.md R7). -/
abbrev Config.maxRounds : Nat := 32

/-- `KEY_MAX` (00_scope.md R7). -/
abbrev Config.keyMax : Nat := 64

/-- `ENV_MIN`, the shortest envelope (00_scope.md R7). -/
abbrev Config.envMin : Nat := 32

end Sys2Proof
end

