-- ==== Sys2Proof/Machine/State.lean ====
section
/-! DEFINITION. The state of CORE (10_state.md R20 to R60), what its environment can do to it, and reset. -/

namespace Sys2Proof.Machine

open Sys2Proof

/-- The names a failed command can report (60_exceptions.md R240). -/
inductive Failure where
  /-- Code 1 (60_exceptions.md R241). -/
  | invalidKey
  /-- Code 2 (60_exceptions.md R242). -/
  | invalidLength
  /-- Code 3 (60_exceptions.md R243). -/
  | invalidPadding
  /-- Code 4 (60_exceptions.md R246). -/
  | allocationFailure
  /-- Code 5 (60_exceptions.md R244). -/
  | entropySourceUnavailable
  /-- Code 6 (60_exceptions.md R248). -/
  | illegalCommand
  deriving DecidableEq, Repr

/-- The result of a command: `OK` or a failure (60_exceptions.md R240). -/
inductive Result where
  /-- Code 0: the command did its work, or no result exists yet (60_exceptions.md R245). -/
  | ok
  /-- The command failed. -/
  | fail (e : Failure)
  deriving DecidableEq, Repr

/-- The position of the sequencer (10_state.md R55). -/
inductive Phase where
  /-- No command. -/
  | idle
  /-- A command is accepted and its tests are to be made. -/
  | check
  /-- A CBC_ENC waits for the entropy source. -/
  | waitEntropy
  /-- Computing; between two steps this means: the drawn IV is in `CHAIN`. -/
  | run
  /-- Writing results; between two steps this means: the draw failed. -/
  | finish
  deriving DecidableEq, Repr

/-- The four host-visible byte spaces (00_scope.md R15). -/
inductive Space where
  /-- The 16-byte IV (10_state.md R38). -/
  | iv
  /-- The 64-byte write-only key buffer (10_state.md R39). -/
  | keybuf
  /-- The input buffer (10_state.md R40). -/
  | ibuf
  /-- The read-only output buffer (10_state.md R41). -/
  | obuf
  deriving DecidableEq, Repr

/-- The ten registers of 20_memory.md R73. -/
inductive Reg where
  /-- 0x00000 -/
  | id
  /-- 0x00004 -/
  | cap
  /-- 0x00008 -/
  | cmd
  /-- 0x0000C -/
  | status
  /-- 0x00010 -/
  | rounds
  /-- 0x00014 -/
  | keyLen
  /-- 0x00018 -/
  | bsize
  /-- 0x0001C -/
  | inLen
  /-- 0x00020 -/
  | outLen
  /-- 0x00024 -/
  | irqEn
  deriving DecidableEq, Repr

/-- What the environment does next, one element for each step (20_memory.md R71, R88;
60_exceptions.md R268; 70_reset_and_hazards.md R280). -/
inductive Input where
  /-- The host reads the word at an address. -/
  | read (addr : Addr)
  /-- The host writes a word. -/
  | write (addr : Addr) (data : Word)
  /-- A rising clock edge with `ent_valid`, `ent_fail` and `ent_data` as given. -/
  | entropy (valid fail : Bool) (data : BitVec 128)
  /-- `rst_n` is driven low and released. -/
  | reset
  /-- Nothing from outside: the engine has its turn. -/
  | engine
  deriving DecidableEq, Repr

/-- The bytes of a space: pairs of offset and byte, offsets strictly rising, no byte 0. An offset that
is not listed holds 0, the reset content of every buffer (10_state.md R60). -/
abbrev Memory := List Host.Cell

/-- The whole state (10_state.md R20), with the response ports of the host bus (20_memory.md R70) and,
last, the model's own list of inputs (log entry 1). -/
structure State where
  /-- `STATUS.BUSY` (10_state.md R25). -/
  busy : Bool
  /-- `STATUS.DONE` (10_state.md R26). -/
  done : Bool
  /-- `STATUS.CTX_VALID` (10_state.md R30). -/
  ctxValid : Bool
  /-- `STATUS.ERR` (10_state.md R27). -/
  err : Result
  /-- `STATUS.CTX_ROUNDS` (10_state.md R31). -/
  ctxRounds : BitVec 6
  /-- `ROUNDS` (10_state.md R32). -/
  rounds : BitVec 8
  /-- `KEY_LEN` (10_state.md R33). -/
  keyLen : BitVec 8
  /-- `BSIZE` (10_state.md R34). -/
  bsize : BitVec 8
  /-- `IN_LEN` (10_state.md R35). -/
  inLen : Word
  /-- `OUT_LEN` (10_state.md R36). -/
  outLen : Word
  /-- `IRQ_EN.EN` (10_state.md R37). -/
  irqEn : Bool
  /-- `IV` (10_state.md R38). -/
  iv : Memory
  /-- `KEYBUF` (10_state.md R39). -/
  keybuf : Memory
  /-- `IBUF` (10_state.md R40). -/
  ibuf : Memory
  /-- `OBUF` (10_state.md R41). -/
  obuf : Memory
  /-- `RK`, the slot of round `i` at index `i - 1` (10_state.md R45). -/
  rk : Vector B16 32
  /-- `CW`, the latched command word (10_state.md R48). -/
  cw : Word
  /-- `L` (10_state.md R50). -/
  l : B8
  /-- `R` (10_state.md R50). -/
  r : B8
  /-- `CHAIN` (10_state.md R51). -/
  chain : B16
  /-- `BLK_IDX` (10_state.md R52). -/
  blkIdx : Nat
  /-- `RND_IDX` (10_state.md R52). -/
  rndIdx : Nat
  /-- `PADACC` (10_state.md R53). -/
  padAcc : Bool
  /-- `PHASE` (10_state.md R55). -/
  phase : Phase
  /-- `h_rdata`, the answer to the transfer of the last step (20_memory.md R70). -/
  hRdata : Word
  /-- `h_err`, the answer to the transfer of the last step (20_memory.md R70, R83). -/
  hErr : Bool
  /-- MODEL: what the environment does next (log entry 1). -/
  inputs : List Input
  deriving DecidableEq, Repr

/-- Nothing stops CORE: every input in every state has a defined result (60_exceptions.md R262), so
no step ends in a fault and there is no reason to name. Safe. -/
inductive Fault where
  deriving DecidableEq, Repr

/-- Why the model gives a command no meaning. -/
inductive Refusal where
  /-- The command is not modelled; raised by an arm of `exec` only, and by none now. Safe. -/
  | notModelled (mnemonic : String)
  deriving DecidableEq, Repr

/-- What a step answers. -/
abbrev Answer := Host.Outcome State Fault Refusal

/-- The state after reset (10_state.md R60). -/
def State.reset : State where
  busy := false
  done := false
  ctxValid := false
  err := .ok
  ctxRounds := 0
  rounds := 16
  keyLen := 0
  bsize := 16
  inLen := 0
  outLen := 0
  irqEn := false
  iv := []
  keybuf := []
  ibuf := []
  obuf := []
  rk := Vector.replicate 32 B16.zero
  cw := 0
  l := B8.zero
  r := B8.zero
  chain := B16.zero
  blkIdx := 0
  rndIdx := 0
  padAcc := false
  phase := .idle
  hRdata := 0
  hErr := false
  inputs := []

end Sys2Proof.Machine
end

