-- ==== Sys2Proof/Machine/Ops.lean ====
section
/-! DEFINITION. The operations over the byte spaces and over the life of a command that every meaning
shares (00_scope.md R15, 30_encoding.md R110, R111, 60_exceptions.md R256, R258). -/

namespace Sys2Proof.Machine

open Sys2Proof

/-- The canonical form of a memory: offsets strictly rising and no entry equal to what an unlisted
offset reads as. -/
abbrev Memory.wf (m : Memory) : Prop :=
  m.Pairwise (fun a b => a.1 < b.1) ∧ ∀ c ∈ m, c.2 ≠ 0

/-- One byte; an unlisted offset reads 0 (10_state.md R60). -/
def Memory.read : Memory → Nat → Byte
  | [], _ => 0
  | (b, w) :: m, a => if a = b then w else Memory.read m a

/-- Store one byte, keeping the canonical form. -/
def Memory.write : Memory → Nat → Byte → Memory
  | [], a, v => if v = 0 then [] else [(a, v)]
  | (b, w) :: m, a, v =>
    if a < b then (if v = 0 then (b, w) :: m else (a, v) :: (b, w) :: m)
    else if a = b then (if v = 0 then m else (a, v) :: m)
    else (b, w) :: Memory.write m a v

/-- The `n` bytes from an offset on. -/
def Memory.readBytes (m : Memory) (off n : Nat) : List Byte :=
  (List.range n).map fun k => m.read (off + k)

/-- Store a string from an offset on. -/
def Memory.writeBytes (m : Memory) (off : Nat) : List Byte → Memory
  | [] => m
  | v :: vs => Memory.writeBytes (m.write off v) (off + 1) vs

/-- The number of bytes of a space (10_state.md R38 to R41). -/
def Space.size : Space → Nat
  | .iv => 16
  | .keybuf => 64
  | .ibuf => Config.bufCap
  | .obuf => Config.bufCap

/-- The bytes of a space. -/
def State.mem (s : State) : Space → Memory
  | .iv => s.iv
  | .keybuf => s.keybuf
  | .ibuf => s.ibuf
  | .obuf => s.obuf

/-- Replace the bytes of a space. -/
def State.setMem (s : State) (sp : Space) (m : Memory) : State :=
  match sp with
  | .iv => { s with iv := m }
  | .keybuf => { s with keybuf := m }
  | .ibuf => { s with ibuf := m }
  | .obuf => { s with obuf := m }

/-- `MemRead(SPACE, off, n)` (00_scope.md R15). -/
def State.memRead (s : State) (sp : Space) (off n : Nat) : List Byte := (s.mem sp).readBytes off n

/-- `MemWrite(SPACE, off, n, v)` with `n` the length of `v` (00_scope.md R15). -/
def State.memWrite (s : State) (sp : Space) (off : Nat) (v : List Byte) : State :=
  s.setMem sp ((s.mem sp).writeBytes off v)

/-- The output of a data command that ends `OK`: `MemWrite(OBUF, 0, len(v), v); OUT_LEN <- len(v)`. -/
def State.output (s : State) (v : List Byte) : State :=
  { s.memWrite .obuf 0 v with outLen := BitVec.ofNat 32 v.length }

/-- `raise E`: end the command with a failure (00_scope.md R15). -/
def raise (e : Failure) (s : State) : Result × State := (.fail e, s)

/-- Zero the registers of the command in progress (10_state.md R54, 30_encoding.md R111). -/
def State.clearWork (s : State) : State :=
  { s with cw := 0, l := B8.zero, r := B8.zero, chain := B16.zero, blkIdx := 0, rndIdx := 0,
           padAcc := false, phase := .idle }

/-- A failed command has no output (30_encoding.md R111, 60_exceptions.md R256). -/
def State.dropOutput (s : State) : State := { s with outLen := 0, obuf := [] }

/-- What complete writes once `Exec` has given its result (30_encoding.md R111). -/
def finish : Result × State → State
  | (.ok, s) => { s.clearWork with err := .ok, busy := false, done := true }
  | (.fail e, s) => { s.dropOutput.clearWork with err := .fail e, busy := false, done := true }

/-- Complete, as the answer of a step: a failed command completes like any other (60_exceptions.md
R257: there is no trap entry). -/
def complete (p : Result × State) : Answer := .next (finish p)

/-- Accept of a command word, legal or not (30_encoding.md R110). -/
def accept (w : Word) (s : State) : State :=
  { s with cw := w, busy := true, done := false, err := .ok, outLen := 0, obuf := [], phase := .check }

/-- The host's acknowledgement, W1C of `DONE` (10_state.md R26, 60_exceptions.md R258). -/
def acknowledge (s : State) : State := { s with done := false }

/-- Reset as one atomic event: the whole state becomes the reset state (70_reset_and_hazards.md R280,
R281); what the environment does afterwards is not CORE's state and stays. -/
def resetEvent (s : State) : State := { State.reset with inputs := s.inputs }

/-- No transfer in this step: `h_rdata` and `h_err` are 0 (20_memory.md R70). -/
def State.noTransfer (s : State) : State := { s with hRdata := 0, hErr := false }

end Sys2Proof.Machine
end

