-- ==== Sys2Proof/Machine/Flags.lean ====
section
/-! DEFINITION. The result codes, the word `STATUS` and the two output lines (60_exceptions.md R240, R250,
R268; 10_state.md R24, R57). CORE has no arithmetic flags. -/

namespace Sys2Proof.Machine

open Sys2Proof

/-- The numbers of the failures (60_exceptions.md R240). -/
def Failure.code : Failure → BitVec 3
  | .invalidKey => 1
  | .invalidLength => 2
  | .invalidPadding => 3
  | .allocationFailure => 4
  | .entropySourceUnavailable => 5
  | .illegalCommand => 6

/-- The code in `STATUS.ERR` (60_exceptions.md R240). -/
def Result.code : Result → BitVec 3
  | .ok => 0
  | .fail e => e.code

/-- `STATUS` as the host reads it, from bit 31 down (10_state.md R24). -/
def State.statusWord (s : State) : Word :=
  (0 : BitVec 18) ++ s.ctxRounds ++ (0 : BitVec 1) ++ s.err.code ++ (0 : BitVec 1) ++
    BitVec.ofBool s.ctxValid ++ BitVec.ofBool s.done ++ BitVec.ofBool s.busy

/-- The line `irq` (60_exceptions.md R250). -/
def State.irq (s : State) : Bool := s.irqEn && s.done

/-- The line `ent_req` (60_exceptions.md R268). -/
def State.entReq (s : State) : Bool := s.phase == .waitEntropy

end Sys2Proof.Machine
end

