-- ==== Sys2Proof/Machine/Operands.lean ====
section
/-! DEFINITION. The implicit operands of the commands and the tests on them (30_encoding.md R102,
10_state.md R62, 60_exceptions.md R254). Lengths are naturals and never wrap (00_scope.md R13). -/

namespace Sys2Proof.Machine

open Sys2Proof

/-- `RK[i]` for `i` from 1 to 32 (10_state.md R45, R46). DESIGN CHOICE, log entry 12: the spec defines no
other index and no command reads one; here index 0 reads `RK[1]`, and an index above 32 reads `0^16`. -/
def State.slot (s : State) (i : Nat) : B16 := s.rk[i - 1]?.getD B16.zero

/-- The context's subkeys `RK[1], ..., RK[CTX_ROUNDS]` (10_state.md R46). -/
def State.contextKeys (s : State) : List B16 :=
  (List.range s.ctxRounds.toNat).map fun k => s.slot (k + 1)

/-- The key: the first `KEY_LEN` bytes of KEYBUF (40_key_schedule.md R137). -/
def State.keyBytes (s : State) : List Byte := s.memRead .keybuf 0 s.keyLen.toNat

/-- The input of a data command, `IBUF[0..IN_LEN)` (10_state.md R35, R40). -/
def State.inputBytes (s : State) : List Byte := s.memRead .ibuf 0 s.inLen.toNat

/-- The input of a block command, `IBUF[0..16)` (41_block_primitive.md R160). -/
def State.inputBlock (s : State) : B16 := blockAt (s.memRead .ibuf 0 16) 0

/-- The 16 bytes of the `IV` register (42_cbc_mode.md R183). -/
def State.ivBlock (s : State) : B16 := blockAt (s.memRead .iv 0 16) 0

/-- KEY_INIT's test on the key length and the round count (40_key_schedule.md R133). -/
def keyOperandsBad (keyLen rounds : Nat) : Bool :=
  keyLen == 0 || decide (Config.keyMax < keyLen) || rounds == 0 || decide (Config.maxRounds < rounds)

/-- The bytes of OBUF that encrypting `m` bytes needs (42_cbc_mode.md R171, R184). -/
def envelopeLength (m : Nat) : Nat := 16 * (m / 16 + 2)

/-- The bytes of OBUF that padding `m` bytes to blocks of `bs` needs (43_padding_codec.md R201, R211). -/
def paddedLength (m bs : Nat) : Nat := bs * (m / bs + 1)

/-- `ValidEnvelopeLength(m)` (42_cbc_mode.md R175). -/
def validEnvelopeLength (m : Nat) : Bool := decide (Config.envMin ≤ m) && (m - 16) % 16 == 0

end Sys2Proof.Machine
end

