-- ==== Sys2Proof/Machine/Bus.lean ====
section
/-! DEFINITION. The host's transfers and the entropy port (20_memory.md R71 to R90, 60_exceptions.md R268). -/

namespace Sys2Proof.Machine

open Sys2Proof

/-- What a mapped, aligned address names (20_memory.md R72). -/
inductive Target where
  /-- A register. -/
  | reg (r : Reg)
  /-- The word of a space whose lowest byte is at an offset. -/
  | word (sp : Space) (off : Nat)
  deriving DecidableEq, Repr

/-- The registers by address (20_memory.md R73). -/
def regAt (a : Nat) : Option Reg :=
  if a = 0x00000 then some .id
  else if a = 0x00004 then some .cap
  else if a = 0x00008 then some .cmd
  else if a = 0x0000C then some .status
  else if a = 0x00010 then some .rounds
  else if a = 0x00014 then some .keyLen
  else if a = 0x00018 then some .bsize
  else if a = 0x0001C then some .inLen
  else if a = 0x00020 then some .outLen
  else if a = 0x00024 then some .irqEn
  else none

/-- Where a space begins (20_memory.md R72). -/
def Space.base : Space → Nat
  | .iv => 0x00040
  | .keybuf => 0x00080
  | .ibuf => 0x10000
  | .obuf => 0x20000

/-- The address lies in the space (20_memory.md R72). -/
def Space.contains (sp : Space) (a : Nat) : Bool := decide (sp.base ≤ a ∧ a < sp.base + sp.size)

/-- The spaces by address (20_memory.md R72, R74). -/
def spaceAt (a : Nat) : Option Space :=
  if Space.iv.contains a then some .iv
  else if Space.keybuf.contains a then some .keybuf
  else if Space.ibuf.contains a then some .ibuf
  else if Space.obuf.contains a then some .obuf
  else none

/-- The target of an address; none when it is misaligned or unmapped (20_memory.md R75, R79). -/
def targetAt (addr : Addr) : Option Target :=
  if addr.toNat % 4 ≠ 0 then none
  else
    match regAt addr.toNat with
    | some r => some (.reg r)
    | none => (spaceAt addr.toNat).map fun sp => .word sp (addr.toNat - sp.base)

/-- The identification word (10_state.md R21). -/
def idWord : Word := 0x43444201

/-- A register as the host reads it (10_state.md R21 to R37): reserved bits read 0, `CMD` reads 0. -/
def State.readReg (s : State) : Reg → Word
  | .id => idWord
  | .cap => BitVec.ofNat 32 Config.bufCap
  | .cmd => 0
  | .status => s.statusWord
  | .rounds => s.rounds.setWidth 32
  | .keyLen => s.keyLen.setWidth 32
  | .bsize => s.bsize.setWidth 32
  | .inLen => s.inLen
  | .outLen => s.outLen
  | .irqEn => (BitVec.ofBool s.irqEn).setWidth 32

/-- The word of a memory at an offset (20_memory.md R76). -/
def Memory.readWord (m : Memory) (off : Nat) : Word :=
  wordOfLanes (m.read off) (m.read (off + 1)) (m.read (off + 2)) (m.read (off + 3))

/-- What a mapped word reads as while `BUSY = 0`; KEYBUF reads 0 (10_state.md R39). -/
def State.readTarget (s : State) : Target → Word
  | .reg r => s.readReg r
  | .word .keybuf _ => 0
  | .word .iv off => s.iv.readWord off
  | .word .ibuf off => s.ibuf.readWord off
  | .word .obuf off => s.obuf.readWord off

/-- The targets that can be read while `BUSY = 1` (20_memory.md R86). -/
def Target.readableWhileBusy : Target → Bool
  | .reg .id => true
  | .reg .cap => true
  | .reg .status => true
  | .reg .cmd => false
  | .reg .rounds => false
  | .reg .keyLen => false
  | .reg .bsize => false
  | .reg .inLen => false
  | .reg .outLen => false
  | .reg .irqEn => false
  | .word _ _ => false

/-- `HostRead(addr)`: the data and `h_err` (20_memory.md R71, R75, R82, R83, R86). -/
def State.busRead (s : State) (addr : Addr) : Word × Bool :=
  match targetAt addr with
  | none => (0, true)
  | some t => if s.busy && !t.readableWhileBusy then (0, false) else (s.readTarget t, false)

/-- A write to a register while `BUSY = 0` (10_state.md R21 to R37, R63). -/
def writeReg (s : State) (w : Word) : Reg → State
  | .id => s
  | .cap => s
  | .cmd => accept w s
  | .status => if w.getLsbD 1 then acknowledge s else s
  | .rounds => { s with rounds := w.setWidth 8 }
  | .keyLen => { s with keyLen := w.setWidth 8 }
  | .bsize => { s with bsize := w.setWidth 8 }
  | .inLen => { s with inLen := w }
  | .outLen => s
  | .irqEn => { s with irqEn := w.getLsbD 0 }

/-- A write to a mapped word while `BUSY = 0`; OBUF is read-only (10_state.md R38 to R41). -/
def writeTarget (s : State) (w : Word) : Target → State
  | .reg r => writeReg s w r
  | .word .obuf _ => s
  | .word .iv off => s.memWrite .iv off (lanesOfWord w)
  | .word .keybuf off => s.memWrite .keybuf off (lanesOfWord w)
  | .word .ibuf off => s.memWrite .ibuf off (lanesOfWord w)

/-- `HostWrite(addr, data)`: the state after and `h_err` (20_memory.md R71, R75, R83, R86). -/
def busWrite (s : State) (addr : Addr) (w : Word) : State × Bool :=
  match targetAt addr with
  | none => (s, true)
  | some t => if s.busy then (s, false) else (writeTarget s w t, false)

/-- The step of a host read: only the response changes (20_memory.md R82). -/
def hostRead (addr : Addr) (s : State) : State :=
  { s with hRdata := (s.busRead addr).1, hErr := (s.busRead addr).2 }

/-- The step of a host write; `h_rdata` is 0 (20_memory.md R70). -/
def hostWrite (addr : Addr) (w : Word) (s : State) : State :=
  { (busWrite s addr w).1 with hRdata := 0, hErr := (busWrite s addr w).2 }

/-- A clock edge at the entropy port (60_exceptions.md R268): without a request the inputs are ignored;
`ent_fail` wins; the drawn bytes go into `CHAIN` (10_state.md R58). -/
def entropyEdge (valid fail : Bool) (data : BitVec 128) (s : State) : State :=
  if s.entReq then
    if fail then { s with phase := .finish }
    else if valid then { s with phase := .run, chain := blockOfEntData data }
    else s
  else s

end Sys2Proof.Machine
end

