-- ==== Sys2Proof/Machine/BlockPrimitive.lean ====
section
/-! DEFINITION. The Block Primitive family: the Feistel network, BLK_ENC and BLK_DEC
(41_block_primitive.md). The pure functions take the round function as an argument; the engine runs the
same rounds on its work registers with `Config.F`. -/

namespace Sys2Proof.Machine

open Sys2Proof

/-- One encryption round (41_block_primitive.md R151). -/
def feistelRound (F : B8 → B16 → B8) (p : B8 × B8) (k : B16) : B8 × B8 := (p.2, xorBytes p.1 (F p.2 k))

/-- One decryption round (41_block_primitive.md R153). -/
def feistelInvRound (F : B8 → B16 → B8) (p : B8 × B8) (k : B16) : B8 × B8 := (xorBytes p.2 (F p.1 k), p.1)

/-- `EncBlock(b, n, rk)` with `ks` the sequence `rk[1..n]` (41_block_primitive.md R152). -/
def encBlock (F : B8 → B16 → B8) (ks : List B16) (b : B16) : B16 :=
  let p := ks.foldl (feistelRound F) (leftHalf b, rightHalf b)
  joinHalves p.1 p.2

/-- `DecBlock(c, n, rk)` with `ks` the sequence `rk[1..n]` (41_block_primitive.md R154). -/
def decBlock (F : B8 → B16 → B8) (ks : List B16) (c : B16) : B16 :=
  let p := ks.reverse.foldl (feistelInvRound F) (leftHalf c, rightHalf c)
  joinHalves p.1 p.2

/-- Load a block into `L` and `R` (41_block_primitive.md R152). -/
def loadHalves (b : B16) (s : State) : State := { s with l := leftHalf b, r := rightHalf b }

/-- The block held in `L` and `R`. -/
def State.halves (s : State) : B16 := joinHalves s.l s.r

/-- Encryption round `i` on the work registers, with `RK[i]` (41_block_primitive.md R152, R156). -/
def encRound (s : State) (i : Nat) : State :=
  let p := feistelRound Config.F (s.l, s.r) (s.slot i)
  { s with l := p.1, r := p.2, rndIdx := i }

/-- Decryption round `i` on the work registers, with `RK[i]` (41_block_primitive.md R154, R156). -/
def decRound (s : State) (i : Nat) : State :=
  let p := feistelInvRound Config.F (s.l, s.r) (s.slot i)
  { s with l := p.1, r := p.2, rndIdx := i }

/-- The engine encrypts a block: rounds `1..CTX_ROUNDS`; the result stands in `L` and `R`
(41_block_primitive.md R152). -/
def runEncBlock (b : B16) (s : State) : State :=
  (List.range' 1 s.ctxRounds.toNat).foldl encRound (loadHalves b s)

/-- The engine decrypts a block: rounds `CTX_ROUNDS downto 1` (41_block_primitive.md R154). -/
def runDecBlock (c : B16) (s : State) : State :=
  (List.range' 1 s.ctxRounds.toNat).reverse.foldl decRound (loadHalves c s)

/-- Write the block in `L` and `R` as the command's output (41_block_primitive.md R160). -/
def outputHalves (s : State) : Result × State := (.ok, s.output s.halves.toList)

/-- BLK_ENC (41_block_primitive.md R160, R162). -/
def execBlkEnc (s : State) : Answer :=
  complete (if !s.ctxValid then raise .illegalCommand s else outputHalves (runEncBlock s.inputBlock s))

/-- BLK_DEC (41_block_primitive.md R161, R162). -/
def execBlkDec (s : State) : Answer :=
  complete (if !s.ctxValid then raise .illegalCommand s else outputHalves (runDecBlock s.inputBlock s))

end Sys2Proof.Machine
end

