-- ==== Sys2Proof/Machine/Padding.lean ====
section
/-! DEFINITION. The Padding Codec family: `Pad`, `Unpad`, PAD and UNPAD (43_padding_codec.md). -/

namespace Sys2Proof.Machine

open Sys2Proof

/-- The pad count of a string of `m` bytes, with the source's clause that is never taken
(43_padding_codec.md R200, R201; 90_conflicts.md C2). -/
def padCount (m bs : Nat) : Nat := if bs - m % bs = 0 then bs else bs - m % bs

/-- `Pad(d, bs)` (43_padding_codec.md R200). -/
def pad (d : List Byte) (bs : Nat) : List Byte :=
  d ++ List.replicate (padCount d.length bs) (BitVec.ofNat 8 (padCount d.length bs))

/-- The last byte of a string, the pad count it claims (43_padding_codec.md R203). -/
def lastByte (d : List Byte) : Byte := d.getD (d.length - 1) 0

/-- Tests (a) and (b) of `Unpad` fail: they depend on the length only (43_padding_codec.md R203). -/
def padLengthBad (d : List Byte) (bs : Nat) : Bool := d.length == 0 || d.length % bs != 0

/-- Tests (c) and (d) of `Unpad` fail (43_padding_codec.md R203). -/
def padCountBad (d : List Byte) (bs : Nat) : Bool := lastByte d == 0 || decide (bs < (lastByte d).toNat)

/-- The byte `k` places before the last is covered by the pad count and differs from it
(43_padding_codec.md R203). -/
def padMismatch (d : List Byte) (k : Nat) : Bool :=
  decide (k < (lastByte d).toNat) && d.getD (d.length - 1 - k) 0 != lastByte d

/-- The scan of the whole last block, accumulating without early exit (43_padding_codec.md R203, R204). -/
def padBad (d : List Byte) (bs : Nat) : Bool :=
  (List.range bs).foldl (fun bad k => bad || padMismatch d k) (padCountBad d bs)

/-- The string without the pad bytes it claims. -/
def stripPad (d : List Byte) : List Byte := d.take (d.length - (lastByte d).toNat)

/-- `Unpad(d, bs)` (43_padding_codec.md R203). -/
def unpad (d : List Byte) (bs : Nat) : Except Failure (List Byte) :=
  if padLengthBad d bs then .error .invalidPadding
  else if padBad d bs then .error .invalidPadding
  else .ok (stripPad d)

/-- One step of the engine's scan, on `PADACC` (10_state.md R53). -/
def padScanStep (d : List Byte) (s : State) (k : Nat) : State :=
  { s with padAcc := s.padAcc || padMismatch d k }

/-- The engine's scan of the last block into `PADACC` (10_state.md R53, 43_padding_codec.md R204). -/
def runPadScan (d : List Byte) (bs : Nat) (s : State) : State :=
  (List.range bs).foldl (padScanStep d) { s with padAcc := padCountBad d bs }

/-- The engine's `Unpad`, and its result as the command's output or failure
(43_padding_codec.md R212, 42_cbc_mode.md R186). -/
def runUnpad (d : List Byte) (bs : Nat) (s : State) : Result × State :=
  if padLengthBad d bs then raise .invalidPadding s
  else
    let t := runPadScan d bs s
    if t.padAcc then raise .invalidPadding t else (.ok, t.output (stripPad d))

/-- PAD (43_padding_codec.md R209 to R211). -/
def execPad (s : State) : Answer :=
  complete
    (if s.bsize = 0 then raise .illegalCommand s
     else if Config.bufCap < paddedLength s.inLen.toNat s.bsize.toNat then raise .allocationFailure s
     else (.ok, s.output (pad s.inputBytes s.bsize.toNat)))

/-- UNPAD (43_padding_codec.md R209, R212, R213). -/
def execUnpad (s : State) : Answer :=
  complete
    (if s.bsize = 0 then raise .illegalCommand s
     else if Config.bufCap < s.inLen.toNat then raise .allocationFailure s
     else runUnpad s.inputBytes s.bsize.toNat s)

end Sys2Proof.Machine
end

