-- ==== Sys2Proof/Machine/Cbc.lean ====
section
/-! DEFINITION. The Chaining Mode family: `CbcEncrypt`, `CbcDecrypt`, CBC_ENC and CBC_DEC
(42_cbc_mode.md). The pure functions take the round function as an argument; the engine runs the same
loops on `CHAIN`, `BLK_IDX` and the registers of the block primitive. -/

namespace Sys2Proof.Machine

open Sys2Proof

/-- The blocks `C_1, C_2, ...` of the padded plaintext blocks, from the value before the first
(42_cbc_mode.md R172). -/
def cbcEncBlocks (F : B8 → B16 → B8) (ks : List B16) : B16 → List B16 → List B16
  | _, [] => []
  | prev, p :: ps =>
    let c := encBlock F ks (xorBytes p prev)
    c :: cbcEncBlocks F ks c ps

/-- The blocks `P_1, P_2, ...`, chained with the ciphertext blocks (42_cbc_mode.md R177). -/
def cbcDecBlocks (F : B8 → B16 → B8) (ks : List B16) : B16 → List B16 → List B16
  | _, [] => []
  | prev, c :: cs => xorBytes (decBlock F ks c) prev :: cbcDecBlocks F ks c cs

/-- `CbcEncrypt(p, iv, n, rk)` (42_cbc_mode.md R170). -/
def cbcEncrypt (F : B8 → B16 → B8) (ks : List B16) (p : List Byte) (iv : B16) : List Byte :=
  iv.toList ++ joinBlocks (cbcEncBlocks F ks iv (blocks (pad p Config.cbcBs)))

/-- The padded plaintext an envelope decrypts to, before `Unpad` (42_cbc_mode.md R176). -/
def cbcRecover (F : B8 → B16 → B8) (ks : List B16) (e : List Byte) : List Byte :=
  joinBlocks (cbcDecBlocks F ks (blockAt e 0) (blocks (e.drop 16)))

/-- `CbcDecrypt(E, n, rk)` (42_cbc_mode.md R176). -/
def cbcDecrypt (F : B8 → B16 → B8) (ks : List B16) (e : List Byte) : Except Failure (List Byte) :=
  if !validEnvelopeLength e.length then .error .invalidLength
  else unpad (cbcRecover F ks e) Config.cbcBs

/-- Start a chain: `prev <- iv`, no block processed yet (10_state.md R51, R52). -/
def startChain (iv : B16) (s : State) : State := { s with chain := iv, blkIdx := 0 }

/-- The engine encrypts the next block of a chain; `CHAIN` becomes the ciphertext block
(42_cbc_mode.md R172). -/
def cbcEncStep (p : B16) (s : State) : State :=
  let t := runEncBlock (xorBytes p s.chain) { s with blkIdx := s.blkIdx + 1 }
  { t with chain := t.halves }

/-- The plaintext block the engine recovers once `L` and `R` hold the decrypted block
(42_cbc_mode.md R177). -/
def State.unchained (s : State) : B16 := xorBytes s.halves s.chain

/-- The engine decrypts the next block of a chain; `CHAIN` is still the block before it
(42_cbc_mode.md R177). -/
def cbcDecStep (c : B16) (s : State) : State := runDecBlock c { s with blkIdx := s.blkIdx + 1 }

/-- The engine's block loop of encryption: the ciphertext blocks and the state after
(42_cbc_mode.md R170). -/
def runCbcEnc : List B16 → State → List B16 × State
  | [], s => ([], s)
  | p :: ps, s =>
    let t := cbcEncStep p s
    let q := runCbcEnc ps t
    (t.chain :: q.1, q.2)

/-- The engine's block loop of decryption: the recovered blocks and the state after
(42_cbc_mode.md R176). -/
def runCbcDec : List B16 → State → List B16 × State
  | [], s => ([], s)
  | c :: cs, s =>
    let t := cbcDecStep c s
    let q := runCbcDec cs { t with chain := c }
    (t.unchained :: q.1, q.2)

/-- Encrypt the input with an IV and write the envelope (42_cbc_mode.md R182). -/
def encryptInput (iv : B16) (s : State) : Result × State :=
  let q := runCbcEnc (blocks (pad s.inputBytes Config.cbcBs)) (startChain iv s)
  (.ok, q.2.output (iv.toList ++ joinBlocks q.1))

/-- Decrypt the input, an envelope, and strip its padding (42_cbc_mode.md R186). -/
def decryptInput (s : State) : Result × State :=
  let e := s.inputBytes
  let q := runCbcDec (blocks (e.drop 16)) (startChain (blockAt e 0) s)
  runUnpad (joinBlocks q.1) Config.cbcBs q.2

/-- The part of CBC_ENC after its tests when the IV is to be drawn (42_cbc_mode.md R183): before the
answer the engine waits; after `Bytes(v)` it computes with `v`, which the port has put into `CHAIN`;
after `Unavailable` it fails. -/
def encryptDrawn (s : State) : Answer :=
  match s.phase with
  | .run => complete (encryptInput s.chain s)
  | .finish => complete (raise .entropySourceUnavailable s)
  | .idle => .next { s with phase := .waitEntropy }
  | .check => .next { s with phase := .waitEntropy }
  | .waitEntropy => .next { s with phase := .waitEntropy }

/-- CBC_ENC (42_cbc_mode.md R182 to R184). -/
def execCbcEnc (ivsrc : Bool) (s : State) : Answer :=
  if !s.ctxValid then complete (raise .illegalCommand s)
  else if Config.bufCap < envelopeLength s.inLen.toNat then complete (raise .allocationFailure s)
  else if ivsrc then complete (encryptInput s.ivBlock s)
  else encryptDrawn s

/-- CBC_DEC (42_cbc_mode.md R186, R187). -/
def execCbcDec (s : State) : Answer :=
  complete
    (if !s.ctxValid then raise .illegalCommand s
     else if !validEnvelopeLength s.inLen.toNat then raise .invalidLength s
     else if Config.bufCap < s.inLen.toNat then raise .allocationFailure s
     else decryptInput s)

end Sys2Proof.Machine
end

