-- ==== Sys2Proof/Machine/Housekeeping.lean ====
section
/-! DEFINITION. The Housekeeping family: WIPE and ZEROIZE (44_housekeeping.md). -/

namespace Sys2Proof.Machine

open Sys2Proof

/-- The zero-fills of WIPE: the four spaces list nothing, so every byte reads 0, and the three lengths are
0 (44_housekeeping.md R220, R222). -/
def wipeBuffers (s : State) : State :=
  { s with iv := [], keybuf := [], ibuf := [], obuf := [], keyLen := 0, inLen := 0, outLen := 0 }

/-- The disposal of the context (44_housekeeping.md R224). -/
def dropContext (s : State) : State :=
  { s with rk := Vector.replicate 32 B16.zero, ctxRounds := 0, ctxValid := false }

/-- WIPE (44_housekeeping.md R222). -/
def execWipe (s : State) : Answer := complete (.ok, wipeBuffers s)

/-- ZEROIZE (44_housekeeping.md R224). -/
def execZeroize (s : State) : Answer := complete (.ok, dropContext (wipeBuffers s))

end Sys2Proof.Machine
end

