-- ==== Sys2Proof/Machine/KeySchedule.lean ====
section
/-! DEFINITION. The Key Schedule family: KEY_INIT (40_key_schedule.md). -/

namespace Sys2Proof.Machine

open Sys2Proof

/-- `KeySchedule(key, rounds)` over any function in the place of `KS` (40_key_schedule.md R130). -/
def keySchedule (KS : List Byte → (rounds : Nat) → Vector B16 rounds) (key : List Byte) (rounds : Nat) :
    Except Failure (Vector B16 rounds) :=
  if keyOperandsBad key.length rounds then .error .invalidKey else .ok (KS key rounds)

/-- `for i in 1..n: RK[i] <- rk[i]`; the slots above stay as they are (40_key_schedule.md R131). -/
def storeKeys {n : Nat} (store : Vector B16 32) (ks : Vector B16 n) : Vector B16 32 :=
  Vector.ofFn fun i => if h : i.val < n then ks[i.val] else store[i.val]

/-- The creation of the context (40_key_schedule.md R134). -/
def createContext (s : State) : State :=
  { s with rk := storeKeys s.rk (Config.KS s.keyBytes s.rounds.toNat),
           ctxRounds := s.rounds.setWidth 6, ctxValid := true }

/-- The tests of KEY_INIT and its success (40_key_schedule.md R131 to R134). -/
def keyInitResult (s : State) : Result × State :=
  if s.ctxValid then raise .illegalCommand s
  else if keyOperandsBad s.keyLen.toNat s.rounds.toNat then raise .invalidKey s
  else (.ok, createContext s)

/-- The key buffer is given up on every path: KEYBUF lists nothing, so every byte reads 0
(40_key_schedule.md R136). -/
def dropKey (p : Result × State) : Result × State := (p.1, { p.2 with keybuf := [], keyLen := 0 })

/-- KEY_INIT (40_key_schedule.md R131). -/
def execKeyInit (s : State) : Answer := complete (dropKey (keyInitResult s))

end Sys2Proof.Machine
end

