-- ==== Sys2Proof/Machine/Dispatch.lean ====
section
/-! DEFINITION. `Exec` and complete: one arm for each command (30_encoding.md R111, R112). -/

namespace Sys2Proof.Machine

open Sys2Proof

def exec (i : Instr) (s : State) : Host.Outcome State Fault Refusal :=
  match i with
  | .keyInit => Sys2Proof.Machine.execKeyInit s
  | .blkEnc => Sys2Proof.Machine.execBlkEnc s
  | .blkDec => Sys2Proof.Machine.execBlkDec s
  | .cbcEnc ivsrc => Sys2Proof.Machine.execCbcEnc ivsrc s
  | .cbcDec => Sys2Proof.Machine.execCbcDec s
  | .pad => Sys2Proof.Machine.execPad s
  | .unpad => Sys2Proof.Machine.execUnpad s
  | .wipe => Sys2Proof.Machine.execWipe s
  | .zeroize => Sys2Proof.Machine.execZeroize s

end Sys2Proof.Machine
end

