-- ==== Sys2Proof/Machine/Sequencer.lean ====
section
/-! DEFINITION. Whose turn it is: the engine's step and the environment's (20_memory.md R88, R89). -/

namespace Sys2Proof.Machine

open Sys2Proof

/-- The engine's turn: idle it does nothing; with a command it runs it, and an illegal word completes
with `IllegalCommand` and no other effect (30_encoding.md R105, R111, R112). -/
def engineTurn (s : State) : Answer :=
  if !s.busy then .next s
  else
    match decode s.cw with
    | .ok i => exec i s
    | .error _ => complete (raise .illegalCommand s)

/-- What one input does (20_memory.md R88). -/
def takeInput (x : Input) (s : State) : Answer :=
  match x with
  | .read addr => .next (hostRead addr s)
  | .write addr w => .next (hostWrite addr w s)
  | .entropy valid fail data => .next (entropyEdge valid fail data s.noTransfer)
  | .reset => .next (resetEvent s)
  | .engine => engineTurn s.noTransfer

/-- The word the table's bits of an instruction stand for. -/
def tableWord (nbits w : Nat) : Word := BitVec.ofNat 32 (w % 2 ^ nbits)

end Sys2Proof.Machine
end

