-- ==== Sys2Proof/Machine/Step.lean ====
section
/-! DEFINITION. One step of CORE and its environment (20_memory.md R88, R89). -/

namespace Sys2Proof.Machine

open Sys2Proof

/-- The next input happens; when none is left only the engine moves. -/
def step (s : State) : Host.Outcome State Fault Refusal :=
  match s.inputs with
  | [] => engineTurn s.noTransfer
  | x :: rest => takeInput x { s with inputs := rest }

/-- The command word is where the next step takes it from: accepted, latched in `CW`, with the engine's
turn next (30_encoding.md R110; log entry 2). -/
def State.withFetchWord (s : State) (nbits w : Nat) : State :=
  { accept (tableWord nbits w) s with
      inputs := if s.inputs.isEmpty then [] else .engine :: s.inputs }

end Sys2Proof.Machine
end

