-- ==== Sys2Proof/Safety.lean ====
section
/-! DEFINITION. What a good state is (10_state.md R61 and the invariants it gathers), and the vocabulary
of the statements: what a step completes with and what it leaves unchanged. -/

namespace Sys2Proof.Machine

open Sys2Proof

/-- The registers of the command in progress hold nothing (10_state.md R54). -/
structure WorkZero (s : State) : Prop where
  cw : s.cw = 0
  l : s.l = B8.zero
  r : s.r = B8.zero
  chain : s.chain = B16.zero
  blkIdx : s.blkIdx = 0
  rndIdx : s.rndIdx = 0
  padAcc : s.padAcc = false
  phase : s.phase = .idle

/-- Every memory is in canonical form and inside its space. -/
structure MemoriesWf (s : State) : Prop where
  wf : ∀ sp, (s.mem sp).wf
  bound : ∀ sp, ∀ c ∈ s.mem sp, c.1 < sp.size

/-- What holds between accept and complete: no output and no result yet (30_encoding.md R110), and
nothing in the work registers but a drawn IV (10_state.md R58). -/
structure BusyClean (s : State) : Prop where
  err : s.err = .ok
  outLen : s.outLen = 0
  obuf : s.obuf = []
  l : s.l = B8.zero
  r : s.r = B8.zero
  blkIdx : s.blkIdx = 0
  rndIdx : s.rndIdx = 0
  padAcc : s.padAcc = false
  chain : s.phase ≠ .run → s.chain = B16.zero

/-- The command that waits for the entropy source or has its answer is a CBC_ENC with `IVSRC = 0` that
passed its tests (42_cbc_mode.md R183). -/
structure DrawsIv (s : State) : Prop where
  command : decode s.cw = .ok (.cbcEnc false)
  context : s.ctxValid = true
  capacity : envelopeLength s.inLen.toNat ≤ Config.bufCap

/-- The invariant of the machine (10_state.md R61, with R42, R46, R52, R54, R55). -/
structure State.Inv (s : State) : Prop where
  /-- R61 (a). -/
  notBusyAndDone : ¬ (s.busy = true ∧ s.done = true)
  /-- R55: `BUSY` is 1 in every phase but `IDLE`. -/
  busyPhase : s.busy = true ↔ s.phase ≠ .idle
  /-- R61 (b). -/
  context : s.ctxValid = true ↔ 1 ≤ s.ctxRounds.toNat ∧ s.ctxRounds.toNat ≤ 32
  /-- R61 (b). -/
  noContext : s.ctxValid = false ↔ s.ctxRounds = 0
  /-- R46, R61 (c). -/
  unusedSlots : ∀ i, s.ctxRounds.toNat < i → i ≤ 32 → s.slot i = B16.zero
  /-- R42, R61 (d). -/
  outputEnds : ∀ c ∈ s.obuf, c.1 < s.outLen.toNat
  /-- R36, R61 (d). -/
  outputFits : s.outLen.toNat ≤ Config.bufCap
  /-- R54, R61 (e). -/
  idleWork : s.busy = false → WorkZero s
  /-- R110. -/
  busyClean : s.busy = true → BusyClean s
  /-- R183. -/
  drawing : s.phase = .waitEntropy ∨ s.phase = .run ∨ s.phase = .finish → DrawsIv s
  /-- R61 (g). -/
  failureNoOutput : s.err ≠ .ok → s.outLen = 0
  /-- The canonical form of the four spaces. -/
  memories : MemoriesWf s

/-- One byte of a space. -/
def State.byteAt (s : State) (sp : Space) (a : Nat) : Byte := (s.mem sp).read a

/-- The command has ended with a result (30_encoding.md R111, R113). -/
structure Completed (r : Result) (t : State) : Prop where
  busy : t.busy = false
  done : t.done = true
  err : t.err = r
  work : WorkZero t

/-- The context is unchanged (10_state.md R47). -/
structure KeepsContext (s t : State) : Prop where
  rk : t.rk = s.rk
  ctxRounds : t.ctxRounds = s.ctxRounds
  ctxValid : t.ctxValid = s.ctxValid

/-- The configuration registers are unchanged (44_housekeeping.md R223). -/
structure KeepsConfig (s t : State) : Prop where
  rounds : t.rounds = s.rounds
  bsize : t.bsize = s.bsize
  irqEn : t.irqEn = s.irqEn

/-- The key operands are unchanged. -/
structure KeepsKey (s t : State) : Prop where
  keyLen : t.keyLen = s.keyLen
  keybuf : ∀ a, t.byteAt .keybuf a = s.byteAt .keybuf a

/-- The data operands are unchanged. -/
structure KeepsData (s t : State) : Prop where
  inLen : t.inLen = s.inLen
  iv : ∀ a, t.byteAt .iv a = s.byteAt .iv a
  ibuf : ∀ a, t.byteAt .ibuf a = s.byteAt .ibuf a

/-- The host's bus and the environment are unchanged. -/
structure KeepsBus (s t : State) : Prop where
  hRdata : t.hRdata = s.hRdata
  hErr : t.hErr = s.hErr
  inputs : t.inputs = s.inputs

/-- What a data command leaves unchanged: all but `STATUS.BUSY`, `DONE`, `ERR`, `OUT_LEN`, OBUF and the
work registers (10_state.md R62). -/
structure OnlyOutputChanges (s t : State) : Prop where
  context : KeepsContext s t
  config : KeepsConfig s t
  key : KeepsKey s t
  data : KeepsData s t
  bus : KeepsBus s t

/-- OBUF holds a string from offset 0 on, `OUT_LEN` is its length, and every byte of OBUF outside it is
as before. -/
structure WritesOutput (v : List Byte) (s t : State) : Prop where
  outLen : t.outLen.toNat = v.length
  stored : t.obuf.readBytes 0 v.length = v
  outside : ∀ a, v.length ≤ a → t.byteAt .obuf a = s.byteAt .obuf a

/-- No output: `OUT_LEN` is 0 and every byte of OBUF is 0 (60_exceptions.md R256). -/
structure NoOutput (t : State) : Prop where
  outLen : t.outLen = 0
  obuf : ∀ a, t.byteAt .obuf a = 0

/-- The command ended with a failure and left nothing else changed (60_exceptions.md R256). -/
structure FailsWith (e : Failure) (s t : State) : Prop where
  completed : Completed (.fail e) t
  noOutput : NoOutput t
  frame : OnlyOutputChanges s t

/-- An address that no register and no space has (20_memory.md R75). -/
def unmappedAddr (a : Nat) : Prop :=
  (0x00028 ≤ a ∧ a ≤ 0x0003F) ∨ (0x00050 ≤ a ∧ a ≤ 0x0007F) ∨ (0x000C0 ≤ a ∧ a ≤ 0x0FFFF) ∨
    (0x10000 + Config.bufCap ≤ a ∧ a ≤ 0x1FFFF) ∨ (0x20000 + Config.bufCap ≤ a ∧ a ≤ 0x2FFFF) ∨
    (0x30000 ≤ a ∧ a ≤ 0x3FFFF)

/-- The lanes of a word are the four bytes of a space from an offset on (20_memory.md R76). -/
def HoldsLanes (s : State) (sp : Space) (off : Nat) (data : Word) : Prop :=
  ∀ k, k < 4 → data.toNat / 256 ^ k % 256 = (s.byteAt sp (off + k)).toNat

/-- What a read of an aligned address returns while `BUSY = 0` (20_memory.md R72, R73, R82). -/
structure ReadsIdle (s : State) (a : Nat) (data : Word) : Prop where
  /-- 10_state.md R21. -/
  id : a = 0x00000 → data = 0x43444201
  /-- 10_state.md R22. -/
  cap : a = 0x00004 → data.toNat = Config.bufCap
  /-- 10_state.md R23: write-only. -/
  cmd : a = 0x00008 → data = 0
  /-- 10_state.md R24. -/
  status : a = 0x0000C → data = s.statusWord
  /-- 10_state.md R32. -/
  rounds : a = 0x00010 → data.toNat = s.rounds.toNat
  /-- 10_state.md R33. -/
  keyLen : a = 0x00014 → data.toNat = s.keyLen.toNat
  /-- 10_state.md R34. -/
  bsize : a = 0x00018 → data.toNat = s.bsize.toNat
  /-- 10_state.md R35. -/
  inLen : a = 0x0001C → data = s.inLen
  /-- 10_state.md R36. -/
  outLen : a = 0x00020 → data = s.outLen
  /-- 10_state.md R37. -/
  irqEn : a = 0x00024 → data.toNat = s.irqEn.toNat
  /-- 10_state.md R38. -/
  iv : ∀ off, off < 16 → a = 0x00040 + off → HoldsLanes s .iv off data
  /-- 10_state.md R39: write-only. -/
  keybuf : 0x00080 ≤ a → a ≤ 0x000BF → data = 0
  /-- 10_state.md R40. -/
  ibuf : ∀ off, off < Config.bufCap → a = 0x10000 + off → HoldsLanes s .ibuf off data
  /-- 10_state.md R41. -/
  obuf : ∀ off, off < Config.bufCap → a = 0x20000 + off → HoldsLanes s .obuf off data

/-- The input is a transfer of the host. -/
def Input.isTransfer : Input → Bool
  | .read _ => true
  | .write _ _ => true
  | .entropy _ _ _ => false
  | .reset => false
  | .engine => false

/-- The input neither answers a request for entropy nor resets the machine. -/
def Input.silent : Input → Bool
  | .read _ => true
  | .write _ _ => true
  | .entropy valid fail _ => !valid && !fail
  | .reset => false
  | .engine => true

/-- The machine run for a number of steps. -/
def runSteps (n : Nat) (s : State) : Answer := Host.Core.run Sys2Proof.core n s

end Sys2Proof.Machine
end

