-- ==== Sys2Proof/Certificates/Slice0/Obligations.lean ====
section
/-! DEFINITION. The statements for the provers, family by family, from the numbered rules of spec/. -/

open Sys2Proof Sys2Proof.Machine

/-! ### Encoding (30_encoding.md) -/

/-- Words written out from the table of R104, and words that R105 and R106 call illegal. -/
def Obligations.DecodeOfWrittenOutWords : Prop :=
  decode 0x00000001 = .ok .keyInit ∧ decode 0x00000002 = .ok .blkEnc ∧ decode 0x00000003 = .ok .blkDec ∧
  decode 0x00000004 = .ok (.cbcEnc false) ∧ decode 0x00000104 = .ok (.cbcEnc true) ∧
  decode 0x00000005 = .ok .cbcDec ∧ decode 0x00000006 = .ok .pad ∧ decode 0x00000007 = .ok .unpad ∧
  decode 0x00000008 = .ok .wipe ∧ decode 0x00000009 = .ok .zeroize ∧
  decode 0x00000000 = .error .unknownOpcode ∧ decode 0x0000000A = .error .unknownOpcode ∧
  decode 0x000000FF = .error .unknownOpcode ∧ decode 0x00000101 = .error .ivsrcNotAllowed ∧
  decode 0x00000204 = .error .reservedBits ∧ decode 0x80000006 = .error .reservedBits

/-- A word decodes to a command exactly when it is that command's encoding; so decode of encode is the
identity, and no two words are one command. -/
def Obligations.DecodeIffEncode : Prop := ∀ (w : Word) (i : Instr), decode w = .ok i ↔ encode i = w

/-- Which words are illegal, as ranges of numbers: R105 (opcode 0x00 or 0x0A to 0xFF) and R106 (a reserved
bit, or `IVSRC` beside another opcode than 0x04). -/
def Obligations.IllegalWordsAreExactlyThese : Prop :=
  ∀ w : Word,
    (decode w = .error .reservedBits ↔ 512 ≤ w.toNat) ∧
    (decode w = .error .ivsrcNotAllowed ↔ 256 ≤ w.toNat ∧ w.toNat < 512 ∧ w.toNat ≠ 260) ∧
    (decode w = .error .unknownOpcode ↔ w.toNat = 0 ∨ (10 ≤ w.toNat ∧ w.toNat < 256))

/-! ### Steps, commands and the invariant -/

/-- With a command in progress and the engine's turn, the step is the meaning of the decoded command; the
step adds only that the input is used up and that the bus answers nothing. -/
def Obligations.StepRunsDecodedCommand : Prop :=
  ∀ (s : State) (i : Instr) (rest : List Input), s.busy = true → decode s.cw = .ok i →
    (s.inputs = [] → step s = exec i s.noTransfer) ∧
    (s.inputs = .engine :: rest → step s = exec i { s.noTransfer with inputs := rest })

/-- At the engine's turn (log entry 1: it is next among the inputs, or no input is left) an illegal word
completes with `IllegalCommand` and no other effect (R105, R106), the key buffer included. -/
def Obligations.IllegalWordCompletesWithIllegalCommand : Prop :=
  ∀ (s : State) (e : Illegal), s.busy = true → decode s.cw = .error e →
    s.inputs = [] ∨ s.inputs.head? = some .engine →
    ∃ t, step s = .next t ∧ FailsWith .illegalCommand { s.noTransfer with inputs := s.inputs.tail } t

/-- The table of R60, with `ID`, `CAP` and the two output lines. -/
def Obligations.ResetValues : Prop :=
  let s := State.reset
  s.busy = false ∧ s.done = false ∧ s.ctxValid = false ∧ s.err.code = 0 ∧ s.ctxRounds = 0 ∧
  s.rounds = 16 ∧ s.keyLen = 0 ∧ s.bsize = 16 ∧ s.inLen = 0 ∧ s.outLen = 0 ∧ s.irqEn = false ∧
  (∀ sp a, s.byteAt sp a = 0) ∧ (∀ i, 1 ≤ i → i ≤ 32 → s.slot i = B16.zero) ∧
  s.cw = 0 ∧ s.l = B8.zero ∧ s.r = B8.zero ∧ s.chain = B16.zero ∧ s.blkIdx = 0 ∧ s.rndIdx = 0 ∧
  s.padAcc = false ∧ s.phase = .idle ∧ s.irq = false ∧ s.entReq = false ∧
  s.readReg .id = 0x43444201 ∧ (s.readReg .cap).toNat = Config.bufCap

/-- The reset state meets the invariant. -/
def Obligations.InvHoldsAtReset : Prop := State.reset.Inv

/-- Every step keeps the invariant, whatever the environment does. -/
def Obligations.InvKeptByEveryStep : Prop := ∀ s t : State, s.Inv → step s = .next t → t.Inv

/-- The invariant says what R61 (a) to (h) say. -/
def Obligations.InvGivesTheGlobalInvariants : Prop :=
  ∀ s : State, s.Inv →
    ¬ (s.busy = true ∧ s.done = true) ∧
    (s.ctxValid = true ↔ 1 ≤ s.ctxRounds.toNat ∧ s.ctxRounds.toNat ≤ 32) ∧
    (s.ctxValid = false ↔ s.ctxRounds = 0) ∧
    (∀ i, s.ctxRounds.toNat < i → i ≤ 32 → s.slot i = B16.zero) ∧
    (s.busy = false → ∀ k, s.outLen.toNat ≤ k → s.byteAt .obuf k = 0) ∧
    s.outLen.toNat ≤ Config.bufCap ∧
    (s.busy = false → WorkZero s) ∧
    s.err.code ≠ 7 ∧
    (s.err.code ≠ 0 → s.outLen = 0) ∧
    s.irq = (s.irqEn && s.done)

/-- Nothing stops the machine: from every state a step answers a next state. -/
def Obligations.EveryStepAnswersNext : Prop := ∀ s : State, ∃ t, step s = .next t

/-- At the engine's turn (log entry 1: it is next among the inputs, or no input is left) every command
completes, but a CBC_ENC that passed its tests and waits for its IV. -/
def Obligations.EngineTurnCompletesTheCommand : Prop :=
  ∀ s : State, s.busy = true → s.inputs = [] ∨ s.inputs.head? = some .engine →
    (decode s.cw = .ok (.cbcEnc false) →
      s.ctxValid = false ∨ Config.bufCap < envelopeLength s.inLen.toNat ∨ s.phase = .run ∨
        s.phase = .finish) →
    ∃ t, step s = .next t ∧ t.busy = false ∧ t.done = true ∧ t.phase = .idle

/-- A request for entropy that is never answered leaves `BUSY = 1`, `ent_req = 1` and the word `STATUS`
for ever. -/
def Obligations.UnansweredRequestWaitsForEver : Prop :=
  ∀ (n : Nat) (s : State), s.Inv → s.phase = .waitEntropy → (∀ x ∈ s.inputs, x.silent = true) →
    ∃ t, runSteps n s = .next t ∧ t.busy = true ∧ t.entReq = true ∧ t.statusWord = s.statusWord

/-- Whatever the host does on the bus between accept and complete changes neither the command nor its
results: they are those of the engine's turn taken at once. -/
def Obligations.CommandIsAtomicToTheHost : Prop :=
  ∀ (xs rest : List Input) (s : State), s.busy = true → (∀ x ∈ xs, x.isTransfer = true) →
    s.inputs = xs ++ .engine :: rest →
    runSteps (xs.length + 1) s = step { s with inputs := .engine :: rest }

/-- Reset, from any state and also during a command, gives the reset state; what the environment does
afterwards stays. -/
def Obligations.ResetFromAnyState : Prop :=
  ∀ (s : State) (rest : List Input), s.inputs = .reset :: rest →
    step s = .next { State.reset with inputs := rest }

/-- From the KEY_INIT that made it, only ZEROIZE or reset ends a context (R47). -/
def Obligations.ContextIsImmutable : Prop :=
  ∀ s t : State, s.ctxValid = true → step s = .next t →
    KeepsContext s t ∨ (∃ rest, s.inputs = .reset :: rest) ∨
      (s.busy = true ∧ decode s.cw = .ok .zeroize ∧ t.ctxValid = false)

/-- The effects of a failed command (R256). -/
def Obligations.FailedCommandEffects : Prop :=
  ∀ (s t : State) (e : Failure), s.busy = true → step s = .next t → t.busy = false → t.err = .fail e →
    t.done = true ∧ NoOutput t ∧ WorkZero t ∧ KeepsContext s t ∧ KeepsConfig s t ∧ KeepsData s t ∧
    (decode s.cw ≠ .ok .keyInit → KeepsKey s t) ∧
    (decode s.cw = .ok .keyInit → t.keyLen = 0 ∧ ∀ a, t.byteAt .keybuf a = 0)

/-! ### The host bus, `STATUS` and the interrupt -/

/-- `h_err` is 1 exactly at a misaligned or unmapped address, for a read and for a write, busy or not;
such a transfer reads 0 and changes nothing (R75, R79, R83). A read elsewhere changes nothing but the
response ports (R82) and, while `BUSY = 0`, returns what the address holds; a write answers 0 on
`h_rdata` (R70). -/
def Obligations.BusErrorExactlyWhenMisalignedOrUnmapped : Prop :=
  ∀ (s : State) (addr : Addr) (w : Word) (rest : List Input),
    s.inputs = .read addr :: rest ∨ s.inputs = .write addr w :: rest →
    (addr.toNat % 4 ≠ 0 ∨ unmappedAddr addr.toNat →
      step s = .next { s with inputs := rest, hRdata := 0, hErr := true }) ∧
    (¬ (addr.toNat % 4 ≠ 0 ∨ unmappedAddr addr.toNat) → ∃ t, step s = .next t ∧ t.hErr = false ∧
      (s.inputs = .read addr :: rest →
        t = { s with inputs := rest, hRdata := t.hRdata, hErr := false } ∧
        (s.busy = false → ReadsIdle s addr.toNat t.hRdata)) ∧
      (s.inputs = .write addr w :: rest → t.hRdata = 0))

/-- While `BUSY = 1` a write to any mapped, aligned address has no effect and a read of one returns 0,
but for `ID`, `CAP` and `STATUS` (R86). -/
def Obligations.BusyGatesTheHost : Prop :=
  ∀ (s : State) (addr : Addr) (w : Word) (rest : List Input), s.busy = true → addr.toNat % 4 = 0 →
    ¬ unmappedAddr addr.toNat →
    (s.inputs = .write addr w :: rest →
      step s = .next { s with inputs := rest, hRdata := 0, hErr := false }) ∧
    (s.inputs = .read addr :: rest →
      let data : Word :=
        if addr.toNat = 0x00000 then 0x43444201
        else if addr.toNat = 0x00004 then BitVec.ofNat 32 Config.bufCap
        else if addr.toNat = 0x0000C then s.statusWord
        else 0
      step s = .next { s with inputs := rest, hRdata := data, hErr := false })

/-- A write to a narrow register stores its low bits and drops the rest, and it reads back so (R63). -/
def Obligations.NarrowRegistersStoreTheirLowBits : Prop :=
  ∀ (s : State) (w : Word) (rest : List Input), s.busy = false →
    (s.inputs = .write 0x00010 w :: rest → ∃ t, step s = .next t ∧
      t = { s with inputs := rest, hRdata := 0, hErr := false, rounds := t.rounds } ∧
      t.rounds.toNat = w.toNat % 256 ∧ (t.busRead 0x00010).1.toNat = w.toNat % 256) ∧
    (s.inputs = .write 0x00014 w :: rest → ∃ t, step s = .next t ∧
      t = { s with inputs := rest, hRdata := 0, hErr := false, keyLen := t.keyLen } ∧
      t.keyLen.toNat = w.toNat % 256 ∧ (t.busRead 0x00014).1.toNat = w.toNat % 256) ∧
    (s.inputs = .write 0x00018 w :: rest → ∃ t, step s = .next t ∧
      t = { s with inputs := rest, hRdata := 0, hErr := false, bsize := t.bsize } ∧
      t.bsize.toNat = w.toNat % 256 ∧ (t.busRead 0x00018).1.toNat = w.toNat % 256) ∧
    (s.inputs = .write 0x00024 w :: rest → ∃ t, step s = .next t ∧
      t = { s with inputs := rest, hRdata := 0, hErr := false, irqEn := t.irqEn } ∧
      (t.irqEn = true ↔ w.toNat % 2 = 1) ∧ (t.busRead 0x00024).1.toNat = w.toNat % 2)

/-- `IN_LEN` keeps all 32 bits (R35); writes to `ID`, `CAP`, `OUT_LEN` and any word of OBUF have no effect
(R82). -/
def Obligations.WideAndReadOnlyTargets : Prop :=
  ∀ (s : State) (addr : Addr) (w : Word) (rest : List Input), s.busy = false →
    s.inputs = .write addr w :: rest →
    (addr.toNat = 0x0001C →
      step s = .next { s with inputs := rest, hRdata := 0, hErr := false, inLen := w }) ∧
    (addr.toNat = 0x00000 ∨ addr.toNat = 0x00004 ∨ addr.toNat = 0x00020 ∨
        (addr.toNat % 4 = 0 ∧ 0x20000 ≤ addr.toNat ∧ addr.toNat < 0x20000 + Config.bufCap) →
      step s = .next { s with inputs := rest, hRdata := 0, hErr := false })

/-- A word written to `IV`, KEYBUF or IBUF puts its byte `k`, bits `8k+7` to `8k`, at offset `4j+k` and
changes no other byte; it reads back as written, but KEYBUF reads 0 (R39, R76). -/
def Obligations.BufferWordsAreLittleEndian : Prop :=
  ∀ (s : State) (sp : Space) (j : Nat) (addr : Addr) (w : Word) (rest : List Input), s.busy = false →
    MemoriesWf s → sp ≠ .obuf → 4 * j < sp.size → addr.toNat = sp.base + 4 * j →
    s.inputs = .write addr w :: rest →
    ∃ t, step s = .next t ∧ t.hErr = false ∧
      (∀ k, k < 4 → (t.byteAt sp (4 * j + k)).toNat = w.toNat / 256 ^ k % 256) ∧
      (∀ a, a < 4 * j ∨ 4 * j + 4 ≤ a → t.byteAt sp a = s.byteAt sp a) ∧
      (∀ sp' a, sp' ≠ sp → t.byteAt sp' a = s.byteAt sp' a) ∧
      t = { s with inputs := rest, hRdata := 0, hErr := false, iv := t.iv, keybuf := t.keybuf, ibuf := t.ibuf } ∧
      t.busRead addr = (if sp = .keybuf then 0 else w, false)

/-- No read depends on KEYBUF, on `RK` or on the registers of the command in progress. -/
def Obligations.KeyMaterialIsUnreadable : Prop :=
  ∀ (s : State) (kb : Memory) (rk : Vector B16 32) (cw : Word) (l r : B8) (chain : B16)
    (blkIdx rndIdx : Nat) (padAcc : Bool) (phase : Phase) (addr : Addr),
    State.busRead { s with keybuf := kb, rk := rk, cw := cw, l := l, r := r, chain := chain, blkIdx := blkIdx,
                           rndIdx := rndIdx, padAcc := padAcc, phase := phase } addr = s.busRead addr

/-- The fields of the word `STATUS`, bit by bit (R24). -/
def Obligations.StatusWordLayout : Prop :=
  ∀ (s : State) (b : Nat),
    s.statusWord.getLsbD b =
      if b = 0 then s.busy
      else if b = 1 then s.done
      else if b = 2 then s.ctxValid
      else if 4 ≤ b ∧ b ≤ 6 then s.err.code.getLsbD (b - 4)
      else if 8 ≤ b ∧ b ≤ 13 then s.ctxRounds.getLsbD (b - 8)
      else false

/-- A write to `STATUS` while `BUSY = 0` clears `DONE` when its bit 1 is 1, and changes nothing else
(R26). -/
def Obligations.AcknowledgeClearsDoneOnly : Prop :=
  ∀ (s : State) (w : Word) (rest : List Input), s.busy = false → s.inputs = .write 0x0000C w :: rest →
    step s = .next { s with inputs := rest, hRdata := 0, hErr := false,
                            done := if w.toNat / 2 % 2 = 1 then false else s.done }

/-- Accept: a write of any word to `CMD` while `BUSY = 0` (R110). -/
def Obligations.AcceptOfAnyWord : Prop :=
  ∀ (s : State) (w : Word) (rest : List Input), s.busy = false → s.inputs = .write 0x00008 w :: rest →
    step s = .next { s with inputs := rest, hRdata := 0, hErr := false, cw := w, busy := true,
                            done := false, err := .ok, outLen := 0, obuf := [], phase := .check }

/-- `irq` rises at complete when it is enabled, falls at the acknowledgement and at accept, and follows
`IRQ_EN` at once (R250). -/
def Obligations.IrqFollowsCompletionAndAcknowledgement : Prop :=
  ∀ (s t : State) (w : Word) (rest : List Input), step s = .next t →
    (s.busy = true → t.busy = false → t.done = true → t.irq = s.irqEn) ∧
    (s.busy = false → s.inputs = .write 0x0000C w :: rest → w.toNat / 2 % 2 = 1 → t.irq = false) ∧
    (s.busy = false → s.inputs = .write 0x00008 w :: rest → t.irq = false) ∧
    (s.busy = false → s.inputs = .write 0x00024 w :: rest → t.irq = (decide (w.toNat % 2 = 1) && s.done))

/-! ### Key Schedule (40_key_schedule.md) -/

/-- KEY_INIT with no context, a key of 1 to 64 bytes and 1 to 32 rounds creates the context (R134); the key
buffer is erased, and nothing else changes. -/
def Obligations.KeyInitCreatesTheContext : Prop :=
  ∀ s : State, s.Inv → s.ctxValid = false → 1 ≤ s.keyLen.toNat → s.keyLen.toNat ≤ 64 →
    1 ≤ s.rounds.toNat → s.rounds.toNat ≤ 32 →
    ∃ t, exec .keyInit s = .next t ∧ Completed .ok t ∧ t.ctxValid = true ∧
      t.ctxRounds.toNat = s.rounds.toNat ∧
      (∀ (i : Nat) (h : i < s.rounds.toNat),
        t.slot (i + 1) = (Config.KS (s.keybuf.readBytes 0 s.keyLen.toNat) s.rounds.toNat)[i]) ∧
      (∀ i, s.rounds.toNat < i → i ≤ 32 → t.slot i = B16.zero) ∧
      t.keyLen = 0 ∧ (∀ a, t.byteAt .keybuf a = 0) ∧
      KeepsConfig s t ∧ KeepsData s t ∧ KeepsBus s t ∧ t.outLen = s.outLen ∧
      (∀ a, t.byteAt .obuf a = s.byteAt .obuf a)

/-- KEY_INIT fails with `IllegalCommand` when there is a context, whatever the operands, and else with
`InvalidKey` when an operand is out of range (R132, R133); the context stays and the key is erased. -/
def Obligations.KeyInitFailures : Prop :=
  ∀ (s : State) (e : Failure),
    (s.ctxValid = true ∧ e = .illegalCommand) ∨
      (s.ctxValid = false ∧ e = .invalidKey ∧
        (s.keyLen.toNat = 0 ∨ 64 < s.keyLen.toNat ∨ s.rounds.toNat = 0 ∨ 32 < s.rounds.toNat)) →
    ∃ t, exec .keyInit s = .next t ∧ Completed (.fail e) t ∧ NoOutput t ∧ KeepsContext s t ∧
      KeepsConfig s t ∧ KeepsData s t ∧ KeepsBus s t ∧ t.keyLen = 0 ∧ (∀ a, t.byteAt .keybuf a = 0)

/-- Every KEY_INIT, whatever its result, leaves KEYBUF and `KEY_LEN` zero (R136). -/
def Obligations.KeyInitErasesTheKeyOnEveryPath : Prop :=
  ∀ s : State, ∃ t, exec .keyInit s = .next t ∧ t.keyLen = 0 ∧ ∀ a, t.byteAt .keybuf a = 0

/-- The context depends on the first `KEY_LEN` bytes of KEYBUF and on `ROUNDS` alone (R135, R137). -/
def Obligations.KeyInitIsDeterministic : Prop :=
  ∀ s s' : State, s.Inv → s'.Inv → s.ctxValid = false → s'.ctxValid = false → s.keyLen = s'.keyLen →
    s.rounds = s'.rounds → (∀ a, a < s.keyLen.toNat → s.byteAt .keybuf a = s'.byteAt .keybuf a) →
    ∃ t t', exec .keyInit s = .next t ∧ exec .keyInit s' = .next t' ∧ t.rk = t'.rk ∧
      t.ctxRounds = t'.ctxRounds ∧ t.ctxValid = t'.ctxValid ∧ t.err = t'.err

/-! ### Block Primitive (41_block_primitive.md) -/

/-- `DecBlock` and `EncBlock` are inverse for every round function and every subkeys (R157, R158). -/
def Obligations.EncBlockAndDecBlockAreInverse : Prop :=
  ∀ (F : B8 → B16 → B8) (ks : List B16) (b : B16),
    decBlock F ks (encBlock F ks b) = b ∧ encBlock F ks (decBlock F ks b) = b

/-- With a round function that returns `0^8` each round exchanges the halves: there is no final swap
(R155). -/
def Obligations.ZeroRoundFunctionExchangesTheHalves : Prop :=
  ∀ (ks : List B16) (l r : B8),
    encBlock (fun _ _ => B8.zero) ks (joinHalves l r) =
      if ks.length % 2 = 1 then joinHalves r l else joinHalves l r

/-- `EncBlock` with one more subkey is `EncBlock` and then one round of R151 on its halves; with none it
is the block (R152). -/
def Obligations.EncBlockRoundByRound : Prop :=
  ∀ (F : B8 → B16 → B8) (ks : List B16) (k : B16) (b : B16),
    encBlock F [] b = b ∧
    encBlock F (ks ++ [k]) b =
      joinHalves (rightHalf (encBlock F ks b))
        (xorBytes (leftHalf (encBlock F ks b)) (F (rightHalf (encBlock F ks b)) k))

/-- BLK_ENC with a context writes `EncBlock` of `IBUF[0..16)` under `RK[1..CTX_ROUNDS]` and leaves all else
unchanged (R160); the subkeys are the slots `RK[1]` to `RK[CTX_ROUNDS]` in order. -/
def Obligations.BlkEncWritesEncBlock : Prop :=
  ∀ s : State, s.ctxValid = true → s.obuf.wf →
    s.contextKeys.length = s.ctxRounds.toNat ∧
    (∀ i, i < s.ctxRounds.toNat → s.contextKeys[i]? = some (s.slot (i + 1))) ∧
    ∃ t, exec .blkEnc s = .next t ∧ Completed .ok t ∧
      WritesOutput (encBlock Config.F s.contextKeys (blockAt (s.ibuf.readBytes 0 16) 0)).toList s t ∧
      OnlyOutputChanges s t

/-- BLK_DEC with a context writes `DecBlock` of `IBUF[0..16)` (R161). -/
def Obligations.BlkDecWritesDecBlock : Prop :=
  ∀ s : State, s.ctxValid = true → s.obuf.wf →
    ∃ t, exec .blkDec s = .next t ∧ Completed .ok t ∧
      WritesOutput (decBlock Config.F s.contextKeys (blockAt (s.ibuf.readBytes 0 16) 0)).toList s t ∧
      OnlyOutputChanges s t

/-- A block or CBC command without a context ends with `IllegalCommand` (R162). -/
def Obligations.NoContextIsIllegalCommand : Prop :=
  ∀ (s : State) (i : Instr), s.ctxValid = false →
    i = .blkEnc ∨ i = .blkDec ∨ i = .cbcEnc false ∨ i = .cbcEnc true ∨ i = .cbcDec →
    ∃ t, exec i s = .next t ∧ FailsWith .illegalCommand s t

/-- BLK_ENC, then BLK_DEC of its output under the same context, gives the input back, and the other way
round (R163). -/
def Obligations.BlockCommandsRoundTrip : Prop :=
  ∀ (s t u : State) (i j : Instr), (i = .blkEnc ∧ j = .blkDec) ∨ (i = .blkDec ∧ j = .blkEnc) →
    s.ctxValid = true → s.obuf.wf → exec i s = .next t → KeepsContext s u → u.obuf.wf →
    (∀ a, a < 16 → u.byteAt .ibuf a = t.byteAt .obuf a) →
    ∃ v, exec j u = .next v ∧ Completed .ok v ∧ v.outLen = 16 ∧
      ∀ a, a < 16 → v.byteAt .obuf a = s.byteAt .ibuf a

/-! ### Chaining Mode (42_cbc_mode.md) -/

/-- CBC_ENC with `IVSRC = 1`, a context and room in OBUF writes the envelope under the IV of the `IV`
register (R182). -/
def Obligations.CbcEncWithSuppliedIv : Prop :=
  ∀ s : State, s.ctxValid = true → 16 * (s.inLen.toNat / 16 + 2) ≤ Config.bufCap → s.obuf.wf →
    ∃ t, exec (.cbcEnc true) s = .next t ∧ Completed .ok t ∧
      WritesOutput (cbcEncrypt Config.F s.contextKeys (s.ibuf.readBytes 0 s.inLen.toNat)
        (blockAt (s.iv.readBytes 0 16) 0)) s t ∧
      OnlyOutputChanges s t

/-- CBC_ENC with `IVSRC = 0`: having passed its tests it raises `ent_req` and waits; with the drawn IV it
writes the envelope under it and does not touch the `IV` register; with `Unavailable` it fails
(R182, R183, R244). -/
def Obligations.CbcEncWithDrawnIv : Prop :=
  ∀ s : State, s.ctxValid = true → 16 * (s.inLen.toNat / 16 + 2) ≤ Config.bufCap → s.obuf.wf →
    (s.phase = .check ∨ s.phase = .waitEntropy → ∃ t, exec (.cbcEnc false) s = .next t ∧
      t = { s with phase := .waitEntropy } ∧ t.entReq = true) ∧
    (s.phase = .run → ∃ t, exec (.cbcEnc false) s = .next t ∧ Completed .ok t ∧
      WritesOutput (cbcEncrypt Config.F s.contextKeys (s.ibuf.readBytes 0 s.inLen.toNat) s.chain) s t ∧
      OnlyOutputChanges s t) ∧
    (s.phase = .finish → ∃ t, exec (.cbcEnc false) s = .next t ∧
      FailsWith .entropySourceUnavailable s t)

/-- The entropy port: `ent_fail` wins, `ent_valid` gives the 16 bytes by lanes, neither changes anything,
and without a request all three inputs are ignored (R268, R78). -/
def Obligations.EntropyPortProtocol : Prop :=
  ∀ (s : State) (valid fail : Bool) (data : BitVec 128) (rest : List Input),
    s.inputs = .entropy valid fail data :: rest →
    (s.entReq = false → step s = .next { s.noTransfer with inputs := rest }) ∧
    (s.entReq = true → fail = true → step s = .next { s.noTransfer with inputs := rest, phase := .finish }) ∧
    (s.entReq = true → fail = false → valid = false → step s = .next { s.noTransfer with inputs := rest }) ∧
    (s.entReq = true → fail = false → valid = true → ∃ v : B16,
      step s = .next { s.noTransfer with inputs := rest, phase := .run, chain := v } ∧
      ∀ (k : Nat) (h : k < 16), v[k].toNat = data.toNat / 256 ^ k % 256)

/-- A whole CBC_ENC with a generated IV, from the write to `CMD` to complete: the envelope begins with the
16 bytes on `ent_data`, and the `IV` register is not changed. -/
def Obligations.GeneratedIvEndToEnd : Prop :=
  ∀ (s : State) (data : BitVec 128), s.Inv → s.busy = false → s.ctxValid = true →
    16 * (s.inLen.toNat / 16 + 2) ≤ Config.bufCap →
    s.inputs = [.write 0x00008 0x00000004, .engine, .entropy true false data, .engine] →
    ∃ t, runSteps 4 s = .next t ∧ Completed .ok t ∧
      t.outLen.toNat = 16 * (s.inLen.toNat / 16 + 2) ∧
      (∀ k, k < 16 → (t.byteAt .obuf k).toNat = data.toNat / 256 ^ k % 256) ∧
      (∀ a, t.outLen.toNat ≤ a → t.byteAt .obuf a = 0) ∧
      KeepsContext s t ∧ KeepsConfig s t ∧ KeepsKey s t ∧ KeepsData s t

/-- CBC_ENC whose envelope does not fit ends with `AllocationFailure`, before any draw; the longest message
that fits has `BUF_CAP - 17` bytes (R184). -/
def Obligations.CbcEncCapacity : Prop :=
  (∀ (s : State) (ivsrc : Bool), s.ctxValid = true → Config.bufCap < 16 * (s.inLen.toNat / 16 + 2) →
    ∃ t, exec (.cbcEnc ivsrc) s = .next t ∧ FailsWith .allocationFailure s t) ∧
  (∀ m : Nat, 16 * (m / 16 + 2) ≤ Config.bufCap ↔ m ≤ Config.bufCap - 17)

/-- CBC_DEC of an input of a valid length that IBUF holds: the stripped plaintext with `OK` when `Unpad`
accepts, `m - 32` to `m - 17` bytes of it, and `InvalidPadding` when it does not (R186). -/
def Obligations.CbcDecOutcomes : Prop :=
  ∀ s : State, s.ctxValid = true → 32 ≤ s.inLen.toNat → s.inLen.toNat % 16 = 0 →
    s.inLen.toNat ≤ Config.bufCap → s.obuf.wf →
    (∀ p, cbcDecrypt Config.F s.contextKeys (s.ibuf.readBytes 0 s.inLen.toNat) = .ok p →
      ∃ t, exec .cbcDec s = .next t ∧ Completed .ok t ∧ WritesOutput p s t ∧ OnlyOutputChanges s t ∧
        s.inLen.toNat - 32 ≤ t.outLen.toNat ∧ t.outLen.toNat ≤ s.inLen.toNat - 17) ∧
    (∀ e, cbcDecrypt Config.F s.contextKeys (s.ibuf.readBytes 0 s.inLen.toNat) = .error e →
      ∃ t, exec .cbcDec s = .next t ∧ FailsWith .invalidPadding s t)

/-- CBC_DEC rejects a bad length first, with `InvalidLength`, and a length above the capacity next, with
`AllocationFailure` (R175, R187). -/
def Obligations.CbcDecLengthTests : Prop :=
  ∀ s : State, s.ctxValid = true →
    (s.inLen.toNat < 32 ∨ (s.inLen.toNat - 16) % 16 ≠ 0 →
      ∃ t, exec .cbcDec s = .next t ∧ FailsWith .invalidLength s t) ∧
    (32 ≤ s.inLen.toNat → (s.inLen.toNat - 16) % 16 = 0 → Config.bufCap < s.inLen.toNat →
      ∃ t, exec .cbcDec s = .next t ∧ FailsWith .allocationFailure s t)

/-- The envelope of a plaintext of `m` bytes has `16 (m div 16 + 2)` bytes and begins with the IV (R168,
R171). -/
def Obligations.EnvelopeShape : Prop :=
  ∀ (F : B8 → B16 → B8) (ks : List B16) (p : List Byte) (iv : B16),
    (cbcEncrypt F ks p iv).length = 16 * (p.length / 16 + 2) ∧ (cbcEncrypt F ks p iv).take 16 = iv.toList

/-- `C_j = EncBlock(P_j xor C_(j-1))` with `C_0 = IV`, for every block of the padded plaintext (R172). -/
def Obligations.EncryptionChainsCiphertext : Prop :=
  ∀ (F : B8 → B16 → B8) (ks : List B16) (p : List Byte) (iv : B16) (j : Nat), j < p.length / 16 + 1 →
    blockAt (cbcEncrypt F ks p iv) (16 * (j + 1)) =
      encBlock F ks (xorBytes (blockAt (pad p 16) (16 * j)) (blockAt (cbcEncrypt F ks p iv) (16 * j)))

/-- `P_j = DecBlock(C_j) xor C_(j-1)` with the ciphertext block before it, for every block of an envelope of
a valid length (R177). -/
def Obligations.DecryptionChainsCiphertext : Prop :=
  ∀ (F : B8 → B16 → B8) (ks : List B16) (e : List Byte) (j : Nat), 32 ≤ e.length → e.length % 16 = 0 →
    16 * (j + 1) < e.length →
    (cbcRecover F ks e).length = e.length - 16 ∧
    blockAt (cbcRecover F ks e) (16 * j) =
      xorBytes (decBlock F ks (blockAt e (16 * (j + 1)))) (blockAt e (16 * j))

/-- Damage to one block changes the next recovered block in exactly the damaged bits, and leaves every
recovered block alone whose ciphertext block and the one before are unchanged (R180). -/
def Obligations.DamageFlipsTheSameBitsOfTheNextBlock : Prop :=
  ∀ (F : B8 → B16 → B8) (ks : List B16) (e e' : List Byte) (j : Nat), 32 ≤ e.length → e.length % 16 = 0 →
    e'.length = e.length → 16 * (j + 1) < e.length →
    blockAt e (16 * (j + 1)) = blockAt e' (16 * (j + 1)) →
    xorBytes (blockAt (cbcRecover F ks e) (16 * j)) (blockAt (cbcRecover F ks e') (16 * j)) =
      xorBytes (blockAt e (16 * j)) (blockAt e' (16 * j))

/-- `CbcDecrypt` gives back what `CbcEncrypt` was given, for every round function, subkeys, plaintext (the
empty one included) and IV (R178). -/
def Obligations.CbcDecryptInvertsCbcEncrypt : Prop :=
  ∀ (F : B8 → B16 → B8) (ks : List B16) (p : List Byte) (iv : B16),
    cbcDecrypt F ks (cbcEncrypt F ks p iv) = .ok p

/-- CBC_ENC, then CBC_DEC of the envelope it wrote under the same context, gives the message back, from
every state in which the envelope fits. -/
def Obligations.CbcCommandsRoundTrip : Prop :=
  ∀ (s t u : State) (ivsrc : Bool), s.ctxValid = true → s.obuf.wf →
    16 * (s.inLen.toNat / 16 + 2) ≤ Config.bufCap → (ivsrc = false → s.phase = .run) →
    exec (.cbcEnc ivsrc) s = .next t → KeepsContext s u → u.obuf.wf → u.inLen = t.outLen →
    (∀ a, a < t.outLen.toNat → u.byteAt .ibuf a = t.byteAt .obuf a) →
    ∃ v, exec .cbcDec u = .next v ∧ Completed .ok v ∧ v.outLen = s.inLen ∧
      ∀ a, a < s.inLen.toNat → v.byteAt .obuf a = s.byteAt .ibuf a

/-! ### Padding Codec (43_padding_codec.md) -/

/-- The padded string: the data, then `pad` bytes of value `pad`, with `pad = bs - (m mod bs)` from 1 to
`bs`, to the next multiple of `bs` above `m` (R200 to R202). -/
def Obligations.PadShape : Prop :=
  ∀ (d : List Byte) (bs : Nat), 1 ≤ bs → bs ≤ 255 →
    (pad d bs).length = bs * (d.length / bs + 1) ∧ (pad d bs).take d.length = d ∧
    1 ≤ bs - d.length % bs ∧ bs - d.length % bs ≤ bs ∧
    (pad d bs).length = d.length + (bs - d.length % bs) ∧
    ∀ k, d.length ≤ k → k < (pad d bs).length → ((pad d bs).getD k 0).toNat = bs - d.length % bs

/-- `Unpad` accepts exactly the strings that pass tests (a) to (e) of R203, and strips the pad; every other
string is `InvalidPadding`. -/
def Obligations.UnpadAcceptsExactly : Prop :=
  ∀ (d : List Byte) (bs : Nat), 1 ≤ bs → bs ≤ 255 →
    let n := d.length
    let p := (d.getD (n - 1) 0).toNat
    let good := n ≠ 0 ∧ n % bs = 0 ∧ p ≠ 0 ∧ p ≤ bs ∧
      ∀ k, n - p ≤ k → k < n → (d.getD k 0).toNat = p
    (good → unpad d bs = .ok (d.take (n - p))) ∧ (¬ good → unpad d bs = .error .invalidPadding)

/-- `Unpad` undoes `Pad`, and a string that `Unpad` accepts is the `Pad` of its result (R206). -/
def Obligations.UnpadInvertsPad : Prop :=
  ∀ (bs : Nat), 1 ≤ bs → bs ≤ 255 →
    (∀ x, unpad (pad x bs) bs = .ok x) ∧ (∀ d y, unpad d bs = .ok y → pad y bs = d)

/-- A changed last byte of a padded string (R207): the exact cases in which `Unpad` still accepts, and what
it then returns. -/
def Obligations.ChangedLastPadByte : Prop :=
  ∀ (x : List Byte) (bs : Nat) (p' : Byte), 1 ≤ bs → bs ≤ 255 →
    let d := pad x bs
    let p := bs - x.length % bs
    let d' := d.take (d.length - 1) ++ [p']
    let accepted := p'.toNat ≠ 0 ∧ p'.toNat ≤ bs ∧
      ((p'.toNat < p ∧ p'.toNat = 1) ∨
        (p < p'.toNat ∧ p = 1 ∧
          ∀ k, x.length - (p'.toNat - 1) ≤ k → k < x.length → x.getD k 0 = p'))
    p'.toNat ≠ p →
    (accepted → unpad d' bs = .ok (d.take (d.length - p'.toNat))) ∧
    (¬ accepted → unpad d' bs = .error .invalidPadding)

/-- PAD writes the padded input when `BSIZE` is not 0 and the output fits (R210). -/
def Obligations.PadCommandWritesPad : Prop :=
  ∀ s : State, s.bsize ≠ 0 →
    s.bsize.toNat * (s.inLen.toNat / s.bsize.toNat + 1) ≤ Config.bufCap → s.obuf.wf →
    ∃ t, exec .pad s = .next t ∧ Completed .ok t ∧
      WritesOutput (pad (s.ibuf.readBytes 0 s.inLen.toNat) s.bsize.toNat) s t ∧ OnlyOutputChanges s t

/-- UNPAD writes the stripped input when `Unpad` accepts it, and fails with `InvalidPadding` when it does
not (R212). -/
def Obligations.UnpadCommandOutcomes : Prop :=
  ∀ s : State, s.bsize ≠ 0 → s.inLen.toNat ≤ Config.bufCap → s.obuf.wf →
    (∀ x, unpad (s.ibuf.readBytes 0 s.inLen.toNat) s.bsize.toNat = .ok x →
      ∃ t, exec .unpad s = .next t ∧ Completed .ok t ∧ WritesOutput x s t ∧ OnlyOutputChanges s t) ∧
    (∀ e, unpad (s.ibuf.readBytes 0 s.inLen.toNat) s.bsize.toNat = .error e →
      ∃ t, exec .unpad s = .next t ∧ FailsWith .invalidPadding s t)

/-- PAD and UNPAD fail with `IllegalCommand` when `BSIZE` is 0, and else with `AllocationFailure` when the
output of PAD or the input of UNPAD does not fit (R209, R211, R213). -/
def Obligations.CodecCommandFailures : Prop :=
  ∀ s : State,
    (s.bsize = 0 → (∃ t, exec .pad s = .next t ∧ FailsWith .illegalCommand s t) ∧
      (∃ t, exec .unpad s = .next t ∧ FailsWith .illegalCommand s t)) ∧
    (s.bsize ≠ 0 → Config.bufCap < s.bsize.toNat * (s.inLen.toNat / s.bsize.toNat + 1) →
      ∃ t, exec .pad s = .next t ∧ FailsWith .allocationFailure s t) ∧
    (s.bsize ≠ 0 → Config.bufCap < s.inLen.toNat →
      ∃ t, exec .unpad s = .next t ∧ FailsWith .allocationFailure s t)

/-! ### Housekeeping (44_housekeeping.md) -/

/-- WIPE, in every state, zero-fills the four buffers and the three lengths and keeps the context and the
configuration (R222). -/
def Obligations.WipeErasesTheBuffers : Prop :=
  ∀ s : State, ∃ t, exec .wipe s = .next t ∧ Completed .ok t ∧ (∀ sp a, t.byteAt sp a = 0) ∧
    t.keyLen = 0 ∧ t.inLen = 0 ∧ t.outLen = 0 ∧ KeepsContext s t ∧ KeepsConfig s t ∧ KeepsBus s t

/-- ZEROIZE, in every state, also disposes of the context (R224). -/
def Obligations.ZeroizeErasesEverything : Prop :=
  ∀ s : State, ∃ t, exec .zeroize s = .next t ∧ Completed .ok t ∧ (∀ sp a, t.byteAt sp a = 0) ∧
    t.keyLen = 0 ∧ t.inLen = 0 ∧ t.outLen = 0 ∧ t.ctxValid = false ∧ t.ctxRounds = 0 ∧
    (∀ i, 1 ≤ i → i ≤ 32 → t.slot i = B16.zero) ∧ KeepsConfig s t ∧ KeepsBus s t

/-- ZEROIZE and then the acknowledgement leave the reset state, but for `ROUNDS`, `BSIZE` and `IRQ_EN`
(R227). -/
def Obligations.ZeroizeThenAcknowledgeIsReset : Prop :=
  ∀ s : State, s.busy = false →
    s.inputs = [.write 0x00008 0x00000009, .engine, .write 0x0000C 0x00000002] →
    runSteps 3 s =
      .next { State.reset with rounds := s.rounds, bsize := s.bsize, irqEn := s.irqEn }
end

