-- ==== Sys2Proof/Laws/Bytes.lean ====
section
/-! SUPPORT. The algebra of byte strings, halves and blocks. -/

namespace Sys2Proof.Machine

open Sys2Proof

@[simp] theorem getElem_xorBytes {n : Nat} (x y : Vector Byte n) (k : Nat) (h : k < n) :
    (xorBytes x y)[k] = x[k] ^^^ y[k] := by
  simp [xorBytes]

/-- `x xor y xor y = x` (41_block_primitive.md R153). -/
@[simp] theorem xorBytes_xorBytes_right {n : Nat} (x y : Vector Byte n) : xorBytes (xorBytes x y) y = x :=
  Vector.ext fun k h => by simp

theorem xorBytes_comm {n : Nat} (x y : Vector Byte n) : xorBytes x y = xorBytes y x :=
  Vector.ext fun k h => by simp [BitVec.xor_comm]

theorem xorBytes_assoc {n : Nat} (x y z : Vector Byte n) :
    xorBytes (xorBytes x y) z = xorBytes x (xorBytes y z) :=
  Vector.ext fun k h => by simp [BitVec.xor_assoc]

@[simp] theorem xorBytes_self {n : Nat} (x : Vector Byte n) : xorBytes x x = Vector.replicate n 0 :=
  Vector.ext fun k h => by simp

@[simp] theorem xorBytes_zero {n : Nat} (x : Vector Byte n) : xorBytes x (Vector.replicate n 0) = x :=
  Vector.ext fun k h => by simp

@[simp] theorem getElem_leftHalf (b : B16) (k : Nat) (h : k < 8) : (leftHalf b)[k] = b[k] := by
  simp [leftHalf]

@[simp] theorem getElem_rightHalf (b : B16) (k : Nat) (h : k < 8) : (rightHalf b)[k] = b[k + 8] := by
  simp [rightHalf]

theorem getElem_joinHalves (l r : B8) (k : Nat) (h : k < 16) :
    (joinHalves l r)[k] = if h' : k < 8 then l[k] else r[k - 8] := by
  simp [joinHalves]

@[simp] theorem joinHalves_halves (b : B16) : joinHalves (leftHalf b) (rightHalf b) = b :=
  Vector.ext fun k h => by
    rw [getElem_joinHalves]
    split
    · simp
    · rw [getElem_rightHalf]; congr 1; omega

@[simp] theorem leftHalf_joinHalves (l r : B8) : leftHalf (joinHalves l r) = l :=
  Vector.ext fun k h => by simp [getElem_joinHalves, h]

@[simp] theorem rightHalf_joinHalves (l r : B8) : rightHalf (joinHalves l r) = r :=
  Vector.ext fun k h => by simp [getElem_joinHalves]

@[simp] theorem getElem_blockAt (s : List Byte) (a k : Nat) (h : k < 16) :
    (blockAt s a)[k] = s.getD (a + k) 0 := by
  simp [blockAt]

@[simp] theorem length_joinBlocks (bs : List B16) : (joinBlocks bs).length = 16 * bs.length := by
  induction bs with
  | nil => rfl
  | cons b bs ih => simp [joinBlocks, ih]; omega

@[simp] theorem length_blocks (s : List Byte) : (blocks s).length = s.length / 16 := by
  simp [blocks]

/-- The first block of a string that begins with one. -/
@[simp] theorem blockAt_append (b : B16) (s : List Byte) : blockAt (b.toList ++ s) 0 = b :=
  Vector.ext fun k h => by
    rw [getElem_blockAt, Nat.zero_add, List.getD_eq_getElem?_getD,
      List.getElem?_append_left (by simp only [Vector.length_toList]; omega)]
    simp [h]

@[simp] theorem drop_append_block (b : B16) (s : List Byte) : (b.toList ++ s).drop 16 = s :=
  List.drop_left' (by simp)

theorem blockAt_append_add (b : B16) (s : List Byte) (a : Nat) :
    blockAt (b.toList ++ s) (16 + a) = blockAt s a :=
  Vector.ext fun k h => by
    simp only [getElem_blockAt, List.getD_eq_getElem?_getD]
    rw [List.getElem?_append_right (by simp; omega)]
    congr 2; simp; omega

theorem blocks_cons (b : B16) (s : List Byte) : blocks (b.toList ++ s) = b :: blocks s := by
  have hl : (b.toList ++ s).length / 16 = s.length / 16 + 1 := by
    rw [List.length_append, Vector.length_toList]; omega
  rw [blocks, hl, List.range_succ_eq_map, List.map_cons, List.map_map]
  congr 1
  · exact blockAt_append b s
  · rw [blocks]
    refine List.map_congr_left fun j _ => ?_
    show blockAt (b.toList ++ s) (16 * (j + 1)) = blockAt s (16 * j)
    rw [show 16 * (j + 1) = 16 + 16 * j by omega, blockAt_append_add]

/-- Cutting the concatenation of blocks gives the blocks back. -/
@[simp] theorem blocks_joinBlocks (bs : List B16) : blocks (joinBlocks bs) = bs := by
  induction bs with
  | nil => rfl
  | cons b bs ih => rw [joinBlocks, blocks_cons, ih]

theorem toList_blockAt_zero (s : List Byte) (h : 16 ≤ s.length) : (blockAt s 0).toList = s.take 16 := by
  apply List.ext_getElem
  · simp; omega
  · intro k h1 h2
    simp only [Vector.length_toList] at h1
    simp [show k < s.length by omega]

/-- A string of whole blocks is the concatenation of its blocks. -/
theorem joinBlocks_blocks (s : List Byte) (h : s.length % 16 = 0) : joinBlocks (blocks s) = s := by
  obtain ⟨n, hn⟩ : ∃ n, s.length = 16 * n := ⟨s.length / 16, by omega⟩
  induction n generalizing s with
  | zero => rw [List.length_eq_zero_iff.1 (show s.length = 0 by omega)]; rfl
  | succ n ih =>
    have e : s = (blockAt s 0).toList ++ s.drop 16 := by
      rw [toList_blockAt_zero s (by omega), List.take_append_drop]
    have hd : (s.drop 16).length = 16 * n := by rw [List.length_drop]; omega
    rw [e, blocks_cons, joinBlocks, ih _ (by omega) hd]

/-- The block at index `j` of the blocks of a string. -/
theorem getElem_blocks (s : List Byte) (j : Nat) (h : j < (blocks s).length) :
    (blocks s)[j] = blockAt s (16 * j) := by
  simp [blocks]

@[simp] theorem length_slice (s : List Byte) (a b : Nat) (h : b ≤ s.length) :
    (slice s a b).length = b - a := by
  simp [slice]; omega

end Sys2Proof.Machine
end

