-- ==== Sys2Proof/Laws/Config.lean ====
section
/-! SUPPORT. What is known of the capacity (00_scope.md R10). -/

namespace Sys2Proof

theorem Config.bufCap_ge : 48 ≤ Config.bufCap := by simp [Config.bufCap]

theorem Config.bufCap_le : Config.bufCap ≤ 65536 := by
  have := Config.capUnits.isLt; simp only [Config.bufCap]; omega

theorem Config.bufCap_mod : Config.bufCap % 16 = 0 := by simp only [Config.bufCap]; omega

end Sys2Proof
end

