-- ==== Sys2Proof/Laws/State.lean ====
section
/-! SUPPORT. One lemma per field per update of the state, true by rfl, so that no proof unfolds a record
update. A lemma `<update>_<field>` says what the update leaves in the field. -/

namespace Sys2Proof.Machine

open Sys2Proof

/-! ### The fields after no transfer in the step -/

@[simp] theorem noTransfer_busy (s : State) : s.noTransfer.busy = s.busy := rfl
@[simp] theorem noTransfer_done (s : State) : s.noTransfer.done = s.done := rfl
@[simp] theorem noTransfer_ctxValid (s : State) : s.noTransfer.ctxValid = s.ctxValid := rfl
@[simp] theorem noTransfer_err (s : State) : s.noTransfer.err = s.err := rfl
@[simp] theorem noTransfer_ctxRounds (s : State) : s.noTransfer.ctxRounds = s.ctxRounds := rfl
@[simp] theorem noTransfer_rounds (s : State) : s.noTransfer.rounds = s.rounds := rfl
@[simp] theorem noTransfer_keyLen (s : State) : s.noTransfer.keyLen = s.keyLen := rfl
@[simp] theorem noTransfer_bsize (s : State) : s.noTransfer.bsize = s.bsize := rfl
@[simp] theorem noTransfer_inLen (s : State) : s.noTransfer.inLen = s.inLen := rfl
@[simp] theorem noTransfer_outLen (s : State) : s.noTransfer.outLen = s.outLen := rfl
@[simp] theorem noTransfer_irqEn (s : State) : s.noTransfer.irqEn = s.irqEn := rfl
@[simp] theorem noTransfer_iv (s : State) : s.noTransfer.iv = s.iv := rfl
@[simp] theorem noTransfer_keybuf (s : State) : s.noTransfer.keybuf = s.keybuf := rfl
@[simp] theorem noTransfer_ibuf (s : State) : s.noTransfer.ibuf = s.ibuf := rfl
@[simp] theorem noTransfer_obuf (s : State) : s.noTransfer.obuf = s.obuf := rfl
@[simp] theorem noTransfer_rk (s : State) : s.noTransfer.rk = s.rk := rfl
@[simp] theorem noTransfer_cw (s : State) : s.noTransfer.cw = s.cw := rfl
@[simp] theorem noTransfer_l (s : State) : s.noTransfer.l = s.l := rfl
@[simp] theorem noTransfer_r (s : State) : s.noTransfer.r = s.r := rfl
@[simp] theorem noTransfer_chain (s : State) : s.noTransfer.chain = s.chain := rfl
@[simp] theorem noTransfer_blkIdx (s : State) : s.noTransfer.blkIdx = s.blkIdx := rfl
@[simp] theorem noTransfer_rndIdx (s : State) : s.noTransfer.rndIdx = s.rndIdx := rfl
@[simp] theorem noTransfer_padAcc (s : State) : s.noTransfer.padAcc = s.padAcc := rfl
@[simp] theorem noTransfer_phase (s : State) : s.noTransfer.phase = s.phase := rfl
@[simp] theorem noTransfer_hRdata (s : State) : s.noTransfer.hRdata = 0 := rfl
@[simp] theorem noTransfer_hErr (s : State) : s.noTransfer.hErr = false := rfl
@[simp] theorem noTransfer_inputs (s : State) : s.noTransfer.inputs = s.inputs := rfl

/-! ### The fields after accept -/

@[simp] theorem accept_busy (w : Word) (s : State) : (accept w s).busy = true := rfl
@[simp] theorem accept_done (w : Word) (s : State) : (accept w s).done = false := rfl
@[simp] theorem accept_ctxValid (w : Word) (s : State) : (accept w s).ctxValid = s.ctxValid := rfl
@[simp] theorem accept_err (w : Word) (s : State) : (accept w s).err = .ok := rfl
@[simp] theorem accept_ctxRounds (w : Word) (s : State) : (accept w s).ctxRounds = s.ctxRounds := rfl
@[simp] theorem accept_rounds (w : Word) (s : State) : (accept w s).rounds = s.rounds := rfl
@[simp] theorem accept_keyLen (w : Word) (s : State) : (accept w s).keyLen = s.keyLen := rfl
@[simp] theorem accept_bsize (w : Word) (s : State) : (accept w s).bsize = s.bsize := rfl
@[simp] theorem accept_inLen (w : Word) (s : State) : (accept w s).inLen = s.inLen := rfl
@[simp] theorem accept_outLen (w : Word) (s : State) : (accept w s).outLen = 0 := rfl
@[simp] theorem accept_irqEn (w : Word) (s : State) : (accept w s).irqEn = s.irqEn := rfl
@[simp] theorem accept_iv (w : Word) (s : State) : (accept w s).iv = s.iv := rfl
@[simp] theorem accept_keybuf (w : Word) (s : State) : (accept w s).keybuf = s.keybuf := rfl
@[simp] theorem accept_ibuf (w : Word) (s : State) : (accept w s).ibuf = s.ibuf := rfl
@[simp] theorem accept_obuf (w : Word) (s : State) : (accept w s).obuf = [] := rfl
@[simp] theorem accept_rk (w : Word) (s : State) : (accept w s).rk = s.rk := rfl
@[simp] theorem accept_cw (w : Word) (s : State) : (accept w s).cw = w := rfl
@[simp] theorem accept_l (w : Word) (s : State) : (accept w s).l = s.l := rfl
@[simp] theorem accept_r (w : Word) (s : State) : (accept w s).r = s.r := rfl
@[simp] theorem accept_chain (w : Word) (s : State) : (accept w s).chain = s.chain := rfl
@[simp] theorem accept_blkIdx (w : Word) (s : State) : (accept w s).blkIdx = s.blkIdx := rfl
@[simp] theorem accept_rndIdx (w : Word) (s : State) : (accept w s).rndIdx = s.rndIdx := rfl
@[simp] theorem accept_padAcc (w : Word) (s : State) : (accept w s).padAcc = s.padAcc := rfl
@[simp] theorem accept_phase (w : Word) (s : State) : (accept w s).phase = .check := rfl
@[simp] theorem accept_hRdata (w : Word) (s : State) : (accept w s).hRdata = s.hRdata := rfl
@[simp] theorem accept_hErr (w : Word) (s : State) : (accept w s).hErr = s.hErr := rfl
@[simp] theorem accept_inputs (w : Word) (s : State) : (accept w s).inputs = s.inputs := rfl

/-! ### The fields after the acknowledgement -/

@[simp] theorem acknowledge_busy (s : State) : (acknowledge s).busy = s.busy := rfl
@[simp] theorem acknowledge_done (s : State) : (acknowledge s).done = false := rfl
@[simp] theorem acknowledge_ctxValid (s : State) : (acknowledge s).ctxValid = s.ctxValid := rfl
@[simp] theorem acknowledge_err (s : State) : (acknowledge s).err = s.err := rfl
@[simp] theorem acknowledge_ctxRounds (s : State) : (acknowledge s).ctxRounds = s.ctxRounds := rfl
@[simp] theorem acknowledge_rounds (s : State) : (acknowledge s).rounds = s.rounds := rfl
@[simp] theorem acknowledge_keyLen (s : State) : (acknowledge s).keyLen = s.keyLen := rfl
@[simp] theorem acknowledge_bsize (s : State) : (acknowledge s).bsize = s.bsize := rfl
@[simp] theorem acknowledge_inLen (s : State) : (acknowledge s).inLen = s.inLen := rfl
@[simp] theorem acknowledge_outLen (s : State) : (acknowledge s).outLen = s.outLen := rfl
@[simp] theorem acknowledge_irqEn (s : State) : (acknowledge s).irqEn = s.irqEn := rfl
@[simp] theorem acknowledge_iv (s : State) : (acknowledge s).iv = s.iv := rfl
@[simp] theorem acknowledge_keybuf (s : State) : (acknowledge s).keybuf = s.keybuf := rfl
@[simp] theorem acknowledge_ibuf (s : State) : (acknowledge s).ibuf = s.ibuf := rfl
@[simp] theorem acknowledge_obuf (s : State) : (acknowledge s).obuf = s.obuf := rfl
@[simp] theorem acknowledge_rk (s : State) : (acknowledge s).rk = s.rk := rfl
@[simp] theorem acknowledge_cw (s : State) : (acknowledge s).cw = s.cw := rfl
@[simp] theorem acknowledge_l (s : State) : (acknowledge s).l = s.l := rfl
@[simp] theorem acknowledge_r (s : State) : (acknowledge s).r = s.r := rfl
@[simp] theorem acknowledge_chain (s : State) : (acknowledge s).chain = s.chain := rfl
@[simp] theorem acknowledge_blkIdx (s : State) : (acknowledge s).blkIdx = s.blkIdx := rfl
@[simp] theorem acknowledge_rndIdx (s : State) : (acknowledge s).rndIdx = s.rndIdx := rfl
@[simp] theorem acknowledge_padAcc (s : State) : (acknowledge s).padAcc = s.padAcc := rfl
@[simp] theorem acknowledge_phase (s : State) : (acknowledge s).phase = s.phase := rfl
@[simp] theorem acknowledge_hRdata (s : State) : (acknowledge s).hRdata = s.hRdata := rfl
@[simp] theorem acknowledge_hErr (s : State) : (acknowledge s).hErr = s.hErr := rfl
@[simp] theorem acknowledge_inputs (s : State) : (acknowledge s).inputs = s.inputs := rfl

/-! ### The fields after the clearing of the work registers -/

@[simp] theorem clearWork_busy (s : State) : s.clearWork.busy = s.busy := rfl
@[simp] theorem clearWork_done (s : State) : s.clearWork.done = s.done := rfl
@[simp] theorem clearWork_ctxValid (s : State) : s.clearWork.ctxValid = s.ctxValid := rfl
@[simp] theorem clearWork_err (s : State) : s.clearWork.err = s.err := rfl
@[simp] theorem clearWork_ctxRounds (s : State) : s.clearWork.ctxRounds = s.ctxRounds := rfl
@[simp] theorem clearWork_rounds (s : State) : s.clearWork.rounds = s.rounds := rfl
@[simp] theorem clearWork_keyLen (s : State) : s.clearWork.keyLen = s.keyLen := rfl
@[simp] theorem clearWork_bsize (s : State) : s.clearWork.bsize = s.bsize := rfl
@[simp] theorem clearWork_inLen (s : State) : s.clearWork.inLen = s.inLen := rfl
@[simp] theorem clearWork_outLen (s : State) : s.clearWork.outLen = s.outLen := rfl
@[simp] theorem clearWork_irqEn (s : State) : s.clearWork.irqEn = s.irqEn := rfl
@[simp] theorem clearWork_iv (s : State) : s.clearWork.iv = s.iv := rfl
@[simp] theorem clearWork_keybuf (s : State) : s.clearWork.keybuf = s.keybuf := rfl
@[simp] theorem clearWork_ibuf (s : State) : s.clearWork.ibuf = s.ibuf := rfl
@[simp] theorem clearWork_obuf (s : State) : s.clearWork.obuf = s.obuf := rfl
@[simp] theorem clearWork_rk (s : State) : s.clearWork.rk = s.rk := rfl
@[simp] theorem clearWork_cw (s : State) : s.clearWork.cw = 0 := rfl
@[simp] theorem clearWork_l (s : State) : s.clearWork.l = B8.zero := rfl
@[simp] theorem clearWork_r (s : State) : s.clearWork.r = B8.zero := rfl
@[simp] theorem clearWork_chain (s : State) : s.clearWork.chain = B16.zero := rfl
@[simp] theorem clearWork_blkIdx (s : State) : s.clearWork.blkIdx = 0 := rfl
@[simp] theorem clearWork_rndIdx (s : State) : s.clearWork.rndIdx = 0 := rfl
@[simp] theorem clearWork_padAcc (s : State) : s.clearWork.padAcc = false := rfl
@[simp] theorem clearWork_phase (s : State) : s.clearWork.phase = .idle := rfl
@[simp] theorem clearWork_hRdata (s : State) : s.clearWork.hRdata = s.hRdata := rfl
@[simp] theorem clearWork_hErr (s : State) : s.clearWork.hErr = s.hErr := rfl
@[simp] theorem clearWork_inputs (s : State) : s.clearWork.inputs = s.inputs := rfl

/-! ### The fields after the dropping of the output -/

@[simp] theorem dropOutput_busy (s : State) : s.dropOutput.busy = s.busy := rfl
@[simp] theorem dropOutput_done (s : State) : s.dropOutput.done = s.done := rfl
@[simp] theorem dropOutput_ctxValid (s : State) : s.dropOutput.ctxValid = s.ctxValid := rfl
@[simp] theorem dropOutput_err (s : State) : s.dropOutput.err = s.err := rfl
@[simp] theorem dropOutput_ctxRounds (s : State) : s.dropOutput.ctxRounds = s.ctxRounds := rfl
@[simp] theorem dropOutput_rounds (s : State) : s.dropOutput.rounds = s.rounds := rfl
@[simp] theorem dropOutput_keyLen (s : State) : s.dropOutput.keyLen = s.keyLen := rfl
@[simp] theorem dropOutput_bsize (s : State) : s.dropOutput.bsize = s.bsize := rfl
@[simp] theorem dropOutput_inLen (s : State) : s.dropOutput.inLen = s.inLen := rfl
@[simp] theorem dropOutput_outLen (s : State) : s.dropOutput.outLen = 0 := rfl
@[simp] theorem dropOutput_irqEn (s : State) : s.dropOutput.irqEn = s.irqEn := rfl
@[simp] theorem dropOutput_iv (s : State) : s.dropOutput.iv = s.iv := rfl
@[simp] theorem dropOutput_keybuf (s : State) : s.dropOutput.keybuf = s.keybuf := rfl
@[simp] theorem dropOutput_ibuf (s : State) : s.dropOutput.ibuf = s.ibuf := rfl
@[simp] theorem dropOutput_obuf (s : State) : s.dropOutput.obuf = [] := rfl
@[simp] theorem dropOutput_rk (s : State) : s.dropOutput.rk = s.rk := rfl
@[simp] theorem dropOutput_cw (s : State) : s.dropOutput.cw = s.cw := rfl
@[simp] theorem dropOutput_l (s : State) : s.dropOutput.l = s.l := rfl
@[simp] theorem dropOutput_r (s : State) : s.dropOutput.r = s.r := rfl
@[simp] theorem dropOutput_chain (s : State) : s.dropOutput.chain = s.chain := rfl
@[simp] theorem dropOutput_blkIdx (s : State) : s.dropOutput.blkIdx = s.blkIdx := rfl
@[simp] theorem dropOutput_rndIdx (s : State) : s.dropOutput.rndIdx = s.rndIdx := rfl
@[simp] theorem dropOutput_padAcc (s : State) : s.dropOutput.padAcc = s.padAcc := rfl
@[simp] theorem dropOutput_phase (s : State) : s.dropOutput.phase = s.phase := rfl
@[simp] theorem dropOutput_hRdata (s : State) : s.dropOutput.hRdata = s.hRdata := rfl
@[simp] theorem dropOutput_hErr (s : State) : s.dropOutput.hErr = s.hErr := rfl
@[simp] theorem dropOutput_inputs (s : State) : s.dropOutput.inputs = s.inputs := rfl

/-! ### The fields after the writing of the output -/

@[simp] theorem output_busy (s : State) (v : List Byte) : (s.output v).busy = s.busy := rfl
@[simp] theorem output_done (s : State) (v : List Byte) : (s.output v).done = s.done := rfl
@[simp] theorem output_ctxValid (s : State) (v : List Byte) : (s.output v).ctxValid = s.ctxValid := rfl
@[simp] theorem output_err (s : State) (v : List Byte) : (s.output v).err = s.err := rfl
@[simp] theorem output_ctxRounds (s : State) (v : List Byte) : (s.output v).ctxRounds = s.ctxRounds := rfl
@[simp] theorem output_rounds (s : State) (v : List Byte) : (s.output v).rounds = s.rounds := rfl
@[simp] theorem output_keyLen (s : State) (v : List Byte) : (s.output v).keyLen = s.keyLen := rfl
@[simp] theorem output_bsize (s : State) (v : List Byte) : (s.output v).bsize = s.bsize := rfl
@[simp] theorem output_inLen (s : State) (v : List Byte) : (s.output v).inLen = s.inLen := rfl
@[simp] theorem output_outLen (s : State) (v : List Byte) : (s.output v).outLen = BitVec.ofNat 32 v.length := rfl
@[simp] theorem output_irqEn (s : State) (v : List Byte) : (s.output v).irqEn = s.irqEn := rfl
@[simp] theorem output_iv (s : State) (v : List Byte) : (s.output v).iv = s.iv := rfl
@[simp] theorem output_keybuf (s : State) (v : List Byte) : (s.output v).keybuf = s.keybuf := rfl
@[simp] theorem output_ibuf (s : State) (v : List Byte) : (s.output v).ibuf = s.ibuf := rfl
@[simp] theorem output_obuf (s : State) (v : List Byte) : (s.output v).obuf = s.obuf.writeBytes 0 v := rfl
@[simp] theorem output_rk (s : State) (v : List Byte) : (s.output v).rk = s.rk := rfl
@[simp] theorem output_cw (s : State) (v : List Byte) : (s.output v).cw = s.cw := rfl
@[simp] theorem output_l (s : State) (v : List Byte) : (s.output v).l = s.l := rfl
@[simp] theorem output_r (s : State) (v : List Byte) : (s.output v).r = s.r := rfl
@[simp] theorem output_chain (s : State) (v : List Byte) : (s.output v).chain = s.chain := rfl
@[simp] theorem output_blkIdx (s : State) (v : List Byte) : (s.output v).blkIdx = s.blkIdx := rfl
@[simp] theorem output_rndIdx (s : State) (v : List Byte) : (s.output v).rndIdx = s.rndIdx := rfl
@[simp] theorem output_padAcc (s : State) (v : List Byte) : (s.output v).padAcc = s.padAcc := rfl
@[simp] theorem output_phase (s : State) (v : List Byte) : (s.output v).phase = s.phase := rfl
@[simp] theorem output_hRdata (s : State) (v : List Byte) : (s.output v).hRdata = s.hRdata := rfl
@[simp] theorem output_hErr (s : State) (v : List Byte) : (s.output v).hErr = s.hErr := rfl
@[simp] theorem output_inputs (s : State) (v : List Byte) : (s.output v).inputs = s.inputs := rfl

/-! ### The fields after loading a block -/

@[simp] theorem loadHalves_busy (b : B16) (s : State) : (loadHalves b s).busy = s.busy := rfl
@[simp] theorem loadHalves_done (b : B16) (s : State) : (loadHalves b s).done = s.done := rfl
@[simp] theorem loadHalves_ctxValid (b : B16) (s : State) : (loadHalves b s).ctxValid = s.ctxValid := rfl
@[simp] theorem loadHalves_err (b : B16) (s : State) : (loadHalves b s).err = s.err := rfl
@[simp] theorem loadHalves_ctxRounds (b : B16) (s : State) : (loadHalves b s).ctxRounds = s.ctxRounds := rfl
@[simp] theorem loadHalves_rounds (b : B16) (s : State) : (loadHalves b s).rounds = s.rounds := rfl
@[simp] theorem loadHalves_keyLen (b : B16) (s : State) : (loadHalves b s).keyLen = s.keyLen := rfl
@[simp] theorem loadHalves_bsize (b : B16) (s : State) : (loadHalves b s).bsize = s.bsize := rfl
@[simp] theorem loadHalves_inLen (b : B16) (s : State) : (loadHalves b s).inLen = s.inLen := rfl
@[simp] theorem loadHalves_outLen (b : B16) (s : State) : (loadHalves b s).outLen = s.outLen := rfl
@[simp] theorem loadHalves_irqEn (b : B16) (s : State) : (loadHalves b s).irqEn = s.irqEn := rfl
@[simp] theorem loadHalves_iv (b : B16) (s : State) : (loadHalves b s).iv = s.iv := rfl
@[simp] theorem loadHalves_keybuf (b : B16) (s : State) : (loadHalves b s).keybuf = s.keybuf := rfl
@[simp] theorem loadHalves_ibuf (b : B16) (s : State) : (loadHalves b s).ibuf = s.ibuf := rfl
@[simp] theorem loadHalves_obuf (b : B16) (s : State) : (loadHalves b s).obuf = s.obuf := rfl
@[simp] theorem loadHalves_rk (b : B16) (s : State) : (loadHalves b s).rk = s.rk := rfl
@[simp] theorem loadHalves_cw (b : B16) (s : State) : (loadHalves b s).cw = s.cw := rfl
@[simp] theorem loadHalves_l (b : B16) (s : State) : (loadHalves b s).l = leftHalf b := rfl
@[simp] theorem loadHalves_r (b : B16) (s : State) : (loadHalves b s).r = rightHalf b := rfl
@[simp] theorem loadHalves_chain (b : B16) (s : State) : (loadHalves b s).chain = s.chain := rfl
@[simp] theorem loadHalves_blkIdx (b : B16) (s : State) : (loadHalves b s).blkIdx = s.blkIdx := rfl
@[simp] theorem loadHalves_rndIdx (b : B16) (s : State) : (loadHalves b s).rndIdx = s.rndIdx := rfl
@[simp] theorem loadHalves_padAcc (b : B16) (s : State) : (loadHalves b s).padAcc = s.padAcc := rfl
@[simp] theorem loadHalves_phase (b : B16) (s : State) : (loadHalves b s).phase = s.phase := rfl
@[simp] theorem loadHalves_hRdata (b : B16) (s : State) : (loadHalves b s).hRdata = s.hRdata := rfl
@[simp] theorem loadHalves_hErr (b : B16) (s : State) : (loadHalves b s).hErr = s.hErr := rfl
@[simp] theorem loadHalves_inputs (b : B16) (s : State) : (loadHalves b s).inputs = s.inputs := rfl

/-! ### The fields after starting a chain -/

@[simp] theorem startChain_busy (iv : B16) (s : State) : (startChain iv s).busy = s.busy := rfl
@[simp] theorem startChain_done (iv : B16) (s : State) : (startChain iv s).done = s.done := rfl
@[simp] theorem startChain_ctxValid (iv : B16) (s : State) : (startChain iv s).ctxValid = s.ctxValid := rfl
@[simp] theorem startChain_err (iv : B16) (s : State) : (startChain iv s).err = s.err := rfl
@[simp] theorem startChain_ctxRounds (iv : B16) (s : State) : (startChain iv s).ctxRounds = s.ctxRounds := rfl
@[simp] theorem startChain_rounds (iv : B16) (s : State) : (startChain iv s).rounds = s.rounds := rfl
@[simp] theorem startChain_keyLen (iv : B16) (s : State) : (startChain iv s).keyLen = s.keyLen := rfl
@[simp] theorem startChain_bsize (iv : B16) (s : State) : (startChain iv s).bsize = s.bsize := rfl
@[simp] theorem startChain_inLen (iv : B16) (s : State) : (startChain iv s).inLen = s.inLen := rfl
@[simp] theorem startChain_outLen (iv : B16) (s : State) : (startChain iv s).outLen = s.outLen := rfl
@[simp] theorem startChain_irqEn (iv : B16) (s : State) : (startChain iv s).irqEn = s.irqEn := rfl
@[simp] theorem startChain_iv (iv : B16) (s : State) : (startChain iv s).iv = s.iv := rfl
@[simp] theorem startChain_keybuf (iv : B16) (s : State) : (startChain iv s).keybuf = s.keybuf := rfl
@[simp] theorem startChain_ibuf (iv : B16) (s : State) : (startChain iv s).ibuf = s.ibuf := rfl
@[simp] theorem startChain_obuf (iv : B16) (s : State) : (startChain iv s).obuf = s.obuf := rfl
@[simp] theorem startChain_rk (iv : B16) (s : State) : (startChain iv s).rk = s.rk := rfl
@[simp] theorem startChain_cw (iv : B16) (s : State) : (startChain iv s).cw = s.cw := rfl
@[simp] theorem startChain_l (iv : B16) (s : State) : (startChain iv s).l = s.l := rfl
@[simp] theorem startChain_r (iv : B16) (s : State) : (startChain iv s).r = s.r := rfl
@[simp] theorem startChain_chain (iv : B16) (s : State) : (startChain iv s).chain = iv := rfl
@[simp] theorem startChain_blkIdx (iv : B16) (s : State) : (startChain iv s).blkIdx = 0 := rfl
@[simp] theorem startChain_rndIdx (iv : B16) (s : State) : (startChain iv s).rndIdx = s.rndIdx := rfl
@[simp] theorem startChain_padAcc (iv : B16) (s : State) : (startChain iv s).padAcc = s.padAcc := rfl
@[simp] theorem startChain_phase (iv : B16) (s : State) : (startChain iv s).phase = s.phase := rfl
@[simp] theorem startChain_hRdata (iv : B16) (s : State) : (startChain iv s).hRdata = s.hRdata := rfl
@[simp] theorem startChain_hErr (iv : B16) (s : State) : (startChain iv s).hErr = s.hErr := rfl
@[simp] theorem startChain_inputs (iv : B16) (s : State) : (startChain iv s).inputs = s.inputs := rfl

/-! ### The fields after the creation of the context -/

@[simp] theorem createContext_busy (s : State) : (createContext s).busy = s.busy := rfl
@[simp] theorem createContext_done (s : State) : (createContext s).done = s.done := rfl
@[simp] theorem createContext_ctxValid (s : State) : (createContext s).ctxValid = true := rfl
@[simp] theorem createContext_err (s : State) : (createContext s).err = s.err := rfl
@[simp] theorem createContext_ctxRounds (s : State) : (createContext s).ctxRounds = s.rounds.setWidth 6 := rfl
@[simp] theorem createContext_rounds (s : State) : (createContext s).rounds = s.rounds := rfl
@[simp] theorem createContext_keyLen (s : State) : (createContext s).keyLen = s.keyLen := rfl
@[simp] theorem createContext_bsize (s : State) : (createContext s).bsize = s.bsize := rfl
@[simp] theorem createContext_inLen (s : State) : (createContext s).inLen = s.inLen := rfl
@[simp] theorem createContext_outLen (s : State) : (createContext s).outLen = s.outLen := rfl
@[simp] theorem createContext_irqEn (s : State) : (createContext s).irqEn = s.irqEn := rfl
@[simp] theorem createContext_iv (s : State) : (createContext s).iv = s.iv := rfl
@[simp] theorem createContext_keybuf (s : State) : (createContext s).keybuf = s.keybuf := rfl
@[simp] theorem createContext_ibuf (s : State) : (createContext s).ibuf = s.ibuf := rfl
@[simp] theorem createContext_obuf (s : State) : (createContext s).obuf = s.obuf := rfl
@[simp] theorem createContext_rk (s : State) : (createContext s).rk = storeKeys s.rk (Config.KS s.keyBytes s.rounds.toNat) := rfl
@[simp] theorem createContext_cw (s : State) : (createContext s).cw = s.cw := rfl
@[simp] theorem createContext_l (s : State) : (createContext s).l = s.l := rfl
@[simp] theorem createContext_r (s : State) : (createContext s).r = s.r := rfl
@[simp] theorem createContext_chain (s : State) : (createContext s).chain = s.chain := rfl
@[simp] theorem createContext_blkIdx (s : State) : (createContext s).blkIdx = s.blkIdx := rfl
@[simp] theorem createContext_rndIdx (s : State) : (createContext s).rndIdx = s.rndIdx := rfl
@[simp] theorem createContext_padAcc (s : State) : (createContext s).padAcc = s.padAcc := rfl
@[simp] theorem createContext_phase (s : State) : (createContext s).phase = s.phase := rfl
@[simp] theorem createContext_hRdata (s : State) : (createContext s).hRdata = s.hRdata := rfl
@[simp] theorem createContext_hErr (s : State) : (createContext s).hErr = s.hErr := rfl
@[simp] theorem createContext_inputs (s : State) : (createContext s).inputs = s.inputs := rfl

/-! ### The fields after the zero-fills of WIPE -/

@[simp] theorem wipeBuffers_busy (s : State) : (wipeBuffers s).busy = s.busy := rfl
@[simp] theorem wipeBuffers_done (s : State) : (wipeBuffers s).done = s.done := rfl
@[simp] theorem wipeBuffers_ctxValid (s : State) : (wipeBuffers s).ctxValid = s.ctxValid := rfl
@[simp] theorem wipeBuffers_err (s : State) : (wipeBuffers s).err = s.err := rfl
@[simp] theorem wipeBuffers_ctxRounds (s : State) : (wipeBuffers s).ctxRounds = s.ctxRounds := rfl
@[simp] theorem wipeBuffers_rounds (s : State) : (wipeBuffers s).rounds = s.rounds := rfl
@[simp] theorem wipeBuffers_keyLen (s : State) : (wipeBuffers s).keyLen = 0 := rfl
@[simp] theorem wipeBuffers_bsize (s : State) : (wipeBuffers s).bsize = s.bsize := rfl
@[simp] theorem wipeBuffers_inLen (s : State) : (wipeBuffers s).inLen = 0 := rfl
@[simp] theorem wipeBuffers_outLen (s : State) : (wipeBuffers s).outLen = 0 := rfl
@[simp] theorem wipeBuffers_irqEn (s : State) : (wipeBuffers s).irqEn = s.irqEn := rfl
@[simp] theorem wipeBuffers_iv (s : State) : (wipeBuffers s).iv = [] := rfl
@[simp] theorem wipeBuffers_keybuf (s : State) : (wipeBuffers s).keybuf = [] := rfl
@[simp] theorem wipeBuffers_ibuf (s : State) : (wipeBuffers s).ibuf = [] := rfl
@[simp] theorem wipeBuffers_obuf (s : State) : (wipeBuffers s).obuf = [] := rfl
@[simp] theorem wipeBuffers_rk (s : State) : (wipeBuffers s).rk = s.rk := rfl
@[simp] theorem wipeBuffers_cw (s : State) : (wipeBuffers s).cw = s.cw := rfl
@[simp] theorem wipeBuffers_l (s : State) : (wipeBuffers s).l = s.l := rfl
@[simp] theorem wipeBuffers_r (s : State) : (wipeBuffers s).r = s.r := rfl
@[simp] theorem wipeBuffers_chain (s : State) : (wipeBuffers s).chain = s.chain := rfl
@[simp] theorem wipeBuffers_blkIdx (s : State) : (wipeBuffers s).blkIdx = s.blkIdx := rfl
@[simp] theorem wipeBuffers_rndIdx (s : State) : (wipeBuffers s).rndIdx = s.rndIdx := rfl
@[simp] theorem wipeBuffers_padAcc (s : State) : (wipeBuffers s).padAcc = s.padAcc := rfl
@[simp] theorem wipeBuffers_phase (s : State) : (wipeBuffers s).phase = s.phase := rfl
@[simp] theorem wipeBuffers_hRdata (s : State) : (wipeBuffers s).hRdata = s.hRdata := rfl
@[simp] theorem wipeBuffers_hErr (s : State) : (wipeBuffers s).hErr = s.hErr := rfl
@[simp] theorem wipeBuffers_inputs (s : State) : (wipeBuffers s).inputs = s.inputs := rfl

/-! ### The fields after the disposal of the context -/

@[simp] theorem dropContext_busy (s : State) : (dropContext s).busy = s.busy := rfl
@[simp] theorem dropContext_done (s : State) : (dropContext s).done = s.done := rfl
@[simp] theorem dropContext_ctxValid (s : State) : (dropContext s).ctxValid = false := rfl
@[simp] theorem dropContext_err (s : State) : (dropContext s).err = s.err := rfl
@[simp] theorem dropContext_ctxRounds (s : State) : (dropContext s).ctxRounds = 0 := rfl
@[simp] theorem dropContext_rounds (s : State) : (dropContext s).rounds = s.rounds := rfl
@[simp] theorem dropContext_keyLen (s : State) : (dropContext s).keyLen = s.keyLen := rfl
@[simp] theorem dropContext_bsize (s : State) : (dropContext s).bsize = s.bsize := rfl
@[simp] theorem dropContext_inLen (s : State) : (dropContext s).inLen = s.inLen := rfl
@[simp] theorem dropContext_outLen (s : State) : (dropContext s).outLen = s.outLen := rfl
@[simp] theorem dropContext_irqEn (s : State) : (dropContext s).irqEn = s.irqEn := rfl
@[simp] theorem dropContext_iv (s : State) : (dropContext s).iv = s.iv := rfl
@[simp] theorem dropContext_keybuf (s : State) : (dropContext s).keybuf = s.keybuf := rfl
@[simp] theorem dropContext_ibuf (s : State) : (dropContext s).ibuf = s.ibuf := rfl
@[simp] theorem dropContext_obuf (s : State) : (dropContext s).obuf = s.obuf := rfl
@[simp] theorem dropContext_rk (s : State) : (dropContext s).rk = Vector.replicate 32 B16.zero := rfl
@[simp] theorem dropContext_cw (s : State) : (dropContext s).cw = s.cw := rfl
@[simp] theorem dropContext_l (s : State) : (dropContext s).l = s.l := rfl
@[simp] theorem dropContext_r (s : State) : (dropContext s).r = s.r := rfl
@[simp] theorem dropContext_chain (s : State) : (dropContext s).chain = s.chain := rfl
@[simp] theorem dropContext_blkIdx (s : State) : (dropContext s).blkIdx = s.blkIdx := rfl
@[simp] theorem dropContext_rndIdx (s : State) : (dropContext s).rndIdx = s.rndIdx := rfl
@[simp] theorem dropContext_padAcc (s : State) : (dropContext s).padAcc = s.padAcc := rfl
@[simp] theorem dropContext_phase (s : State) : (dropContext s).phase = s.phase := rfl
@[simp] theorem dropContext_hRdata (s : State) : (dropContext s).hRdata = s.hRdata := rfl
@[simp] theorem dropContext_hErr (s : State) : (dropContext s).hErr = s.hErr := rfl
@[simp] theorem dropContext_inputs (s : State) : (dropContext s).inputs = s.inputs := rfl

/-! ### The fields after a reset event -/

@[simp] theorem resetEvent_busy (s : State) : (resetEvent s).busy = State.reset.busy := rfl
@[simp] theorem resetEvent_done (s : State) : (resetEvent s).done = State.reset.done := rfl
@[simp] theorem resetEvent_ctxValid (s : State) : (resetEvent s).ctxValid = State.reset.ctxValid := rfl
@[simp] theorem resetEvent_err (s : State) : (resetEvent s).err = State.reset.err := rfl
@[simp] theorem resetEvent_ctxRounds (s : State) : (resetEvent s).ctxRounds = State.reset.ctxRounds := rfl
@[simp] theorem resetEvent_rounds (s : State) : (resetEvent s).rounds = State.reset.rounds := rfl
@[simp] theorem resetEvent_keyLen (s : State) : (resetEvent s).keyLen = State.reset.keyLen := rfl
@[simp] theorem resetEvent_bsize (s : State) : (resetEvent s).bsize = State.reset.bsize := rfl
@[simp] theorem resetEvent_inLen (s : State) : (resetEvent s).inLen = State.reset.inLen := rfl
@[simp] theorem resetEvent_outLen (s : State) : (resetEvent s).outLen = State.reset.outLen := rfl
@[simp] theorem resetEvent_irqEn (s : State) : (resetEvent s).irqEn = State.reset.irqEn := rfl
@[simp] theorem resetEvent_iv (s : State) : (resetEvent s).iv = State.reset.iv := rfl
@[simp] theorem resetEvent_keybuf (s : State) : (resetEvent s).keybuf = State.reset.keybuf := rfl
@[simp] theorem resetEvent_ibuf (s : State) : (resetEvent s).ibuf = State.reset.ibuf := rfl
@[simp] theorem resetEvent_obuf (s : State) : (resetEvent s).obuf = State.reset.obuf := rfl
@[simp] theorem resetEvent_rk (s : State) : (resetEvent s).rk = State.reset.rk := rfl
@[simp] theorem resetEvent_cw (s : State) : (resetEvent s).cw = State.reset.cw := rfl
@[simp] theorem resetEvent_l (s : State) : (resetEvent s).l = State.reset.l := rfl
@[simp] theorem resetEvent_r (s : State) : (resetEvent s).r = State.reset.r := rfl
@[simp] theorem resetEvent_chain (s : State) : (resetEvent s).chain = State.reset.chain := rfl
@[simp] theorem resetEvent_blkIdx (s : State) : (resetEvent s).blkIdx = State.reset.blkIdx := rfl
@[simp] theorem resetEvent_rndIdx (s : State) : (resetEvent s).rndIdx = State.reset.rndIdx := rfl
@[simp] theorem resetEvent_padAcc (s : State) : (resetEvent s).padAcc = State.reset.padAcc := rfl
@[simp] theorem resetEvent_phase (s : State) : (resetEvent s).phase = State.reset.phase := rfl
@[simp] theorem resetEvent_hRdata (s : State) : (resetEvent s).hRdata = State.reset.hRdata := rfl
@[simp] theorem resetEvent_hErr (s : State) : (resetEvent s).hErr = State.reset.hErr := rfl
@[simp] theorem resetEvent_inputs (s : State) : (resetEvent s).inputs = s.inputs := rfl

/-! ### The fields after complete -/

@[simp] theorem finish_busy (p : Result × State) : (finish p).busy = false := by
  obtain ⟨_ | e, s⟩ := p <;> rfl
@[simp] theorem finish_done (p : Result × State) : (finish p).done = true := by
  obtain ⟨_ | e, s⟩ := p <;> rfl
@[simp] theorem finish_ctxValid (p : Result × State) : (finish p).ctxValid = p.2.ctxValid := by
  obtain ⟨_ | e, s⟩ := p <;> rfl
@[simp] theorem finish_err (p : Result × State) : (finish p).err = p.1 := by
  obtain ⟨_ | e, s⟩ := p <;> rfl
@[simp] theorem finish_ctxRounds (p : Result × State) : (finish p).ctxRounds = p.2.ctxRounds := by
  obtain ⟨_ | e, s⟩ := p <;> rfl
@[simp] theorem finish_rounds (p : Result × State) : (finish p).rounds = p.2.rounds := by
  obtain ⟨_ | e, s⟩ := p <;> rfl
@[simp] theorem finish_keyLen (p : Result × State) : (finish p).keyLen = p.2.keyLen := by
  obtain ⟨_ | e, s⟩ := p <;> rfl
@[simp] theorem finish_bsize (p : Result × State) : (finish p).bsize = p.2.bsize := by
  obtain ⟨_ | e, s⟩ := p <;> rfl
@[simp] theorem finish_inLen (p : Result × State) : (finish p).inLen = p.2.inLen := by
  obtain ⟨_ | e, s⟩ := p <;> rfl
@[simp] theorem finish_ok_outLen (s : State) : (finish (.ok, s)).outLen = s.outLen := rfl
@[simp] theorem finish_fail_outLen (e : Failure) (s : State) : (finish (.fail e, s)).outLen = 0 := rfl
@[simp] theorem finish_irqEn (p : Result × State) : (finish p).irqEn = p.2.irqEn := by
  obtain ⟨_ | e, s⟩ := p <;> rfl
@[simp] theorem finish_iv (p : Result × State) : (finish p).iv = p.2.iv := by
  obtain ⟨_ | e, s⟩ := p <;> rfl
@[simp] theorem finish_keybuf (p : Result × State) : (finish p).keybuf = p.2.keybuf := by
  obtain ⟨_ | e, s⟩ := p <;> rfl
@[simp] theorem finish_ibuf (p : Result × State) : (finish p).ibuf = p.2.ibuf := by
  obtain ⟨_ | e, s⟩ := p <;> rfl
@[simp] theorem finish_ok_obuf (s : State) : (finish (.ok, s)).obuf = s.obuf := rfl
@[simp] theorem finish_fail_obuf (e : Failure) (s : State) : (finish (.fail e, s)).obuf = [] := rfl
@[simp] theorem finish_rk (p : Result × State) : (finish p).rk = p.2.rk := by
  obtain ⟨_ | e, s⟩ := p <;> rfl
@[simp] theorem finish_cw (p : Result × State) : (finish p).cw = 0 := by
  obtain ⟨_ | e, s⟩ := p <;> rfl
@[simp] theorem finish_l (p : Result × State) : (finish p).l = B8.zero := by
  obtain ⟨_ | e, s⟩ := p <;> rfl
@[simp] theorem finish_r (p : Result × State) : (finish p).r = B8.zero := by
  obtain ⟨_ | e, s⟩ := p <;> rfl
@[simp] theorem finish_chain (p : Result × State) : (finish p).chain = B16.zero := by
  obtain ⟨_ | e, s⟩ := p <;> rfl
@[simp] theorem finish_blkIdx (p : Result × State) : (finish p).blkIdx = 0 := by
  obtain ⟨_ | e, s⟩ := p <;> rfl
@[simp] theorem finish_rndIdx (p : Result × State) : (finish p).rndIdx = 0 := by
  obtain ⟨_ | e, s⟩ := p <;> rfl
@[simp] theorem finish_padAcc (p : Result × State) : (finish p).padAcc = false := by
  obtain ⟨_ | e, s⟩ := p <;> rfl
@[simp] theorem finish_phase (p : Result × State) : (finish p).phase = .idle := by
  obtain ⟨_ | e, s⟩ := p <;> rfl
@[simp] theorem finish_hRdata (p : Result × State) : (finish p).hRdata = p.2.hRdata := by
  obtain ⟨_ | e, s⟩ := p <;> rfl
@[simp] theorem finish_hErr (p : Result × State) : (finish p).hErr = p.2.hErr := by
  obtain ⟨_ | e, s⟩ := p <;> rfl
@[simp] theorem finish_inputs (p : Result × State) : (finish p).inputs = p.2.inputs := by
  obtain ⟨_ | e, s⟩ := p <;> rfl

/-! ### A memory write to one space -/

@[simp] theorem memWrite_iv (s : State) (off : Nat) (v : List Byte) :
    s.memWrite .iv off v = { s with iv := s.iv.writeBytes off v } := rfl
@[simp] theorem memWrite_keybuf (s : State) (off : Nat) (v : List Byte) :
    s.memWrite .keybuf off v = { s with keybuf := s.keybuf.writeBytes off v } := rfl
@[simp] theorem memWrite_ibuf (s : State) (off : Nat) (v : List Byte) :
    s.memWrite .ibuf off v = { s with ibuf := s.ibuf.writeBytes off v } := rfl
@[simp] theorem memWrite_obuf (s : State) (off : Nat) (v : List Byte) :
    s.memWrite .obuf off v = { s with obuf := s.obuf.writeBytes off v } := rfl

end Sys2Proof.Machine
end

