-- ==== Sys2Proof/Laws/Engine.lean ====
section
/-! SUPPORT. The engine's loops on its work registers compute the pure functions, and they change nothing
but work registers: one lemma for each shared operation. Two states with equal `clearWork` differ in
their work registers at most. -/

namespace Sys2Proof.Machine

open Sys2Proof

/-! ### States that differ in their work registers only -/

theorem finish_congr {s t : State} (r : Result) (h : s.clearWork = t.clearWork) : finish (r, s) = finish (r, t) := by
  cases r with
  | ok => simp only [finish, h]
  | fail e =>
    have e1 : s.dropOutput.clearWork = s.clearWork.dropOutput := rfl
    have e2 : t.dropOutput.clearWork = t.clearWork.dropOutput := rfl
    simp only [finish, e1, e2, h]

theorem output_congr {s t : State} (v : List Byte) (h : s.clearWork = t.clearWork) :
    (s.output v).clearWork = (t.output v).clearWork := by
  have e1 : (s.output v).clearWork = s.clearWork.output v := rfl
  have e2 : (t.output v).clearWork = t.clearWork.output v := rfl
  rw [e1, e2, h]

theorem contextKeys_congr {s t : State} (h : s.clearWork = t.clearWork) : s.contextKeys = t.contextKeys := by
  have e1 : s.contextKeys = s.clearWork.contextKeys := rfl
  have e2 : t.contextKeys = t.clearWork.contextKeys := rfl
  rw [e1, e2, h]

/-! ### The block primitive -/

/-- The encryption rounds with given indices. -/
theorem foldl_encRound (ns : List Nat) (s : State) :
    ns.foldl encRound s =
      { s with l := ((ns.map s.slot).foldl (feistelRound Config.F) (s.l, s.r)).1,
               r := ((ns.map s.slot).foldl (feistelRound Config.F) (s.l, s.r)).2,
               rndIdx := ns.getLastD s.rndIdx } := by
  induction ns generalizing s with
  | nil => rfl
  | cons n ns ih =>
    rw [List.foldl_cons, ih (encRound s n)]
    have hs : (encRound s n).slot = s.slot := rfl
    rw [hs]
    cases ns <;> rfl

/-- The decryption rounds with given indices. -/
theorem foldl_decRound (ns : List Nat) (s : State) :
    ns.foldl decRound s =
      { s with l := ((ns.map s.slot).foldl (feistelInvRound Config.F) (s.l, s.r)).1,
               r := ((ns.map s.slot).foldl (feistelInvRound Config.F) (s.l, s.r)).2,
               rndIdx := ns.getLastD s.rndIdx } := by
  induction ns generalizing s with
  | nil => rfl
  | cons n ns ih =>
    rw [List.foldl_cons, ih (decRound s n)]
    have hs : (decRound s n).slot = s.slot := rfl
    rw [hs]
    cases ns <;> rfl

/-- The slots of the rounds `1..CTX_ROUNDS` are the context's subkeys. -/
theorem map_slot_rounds (s : State) : (List.range' 1 s.ctxRounds.toNat).map s.slot = s.contextKeys := by
  rw [List.range'_eq_map_range, List.map_map, State.contextKeys]
  exact List.map_congr_left fun k _ => by simp [Nat.add_comm]

/-- The engine's block encryption leaves `EncBlock` of the block in `L` and `R` (41_block_primitive.md R152). -/
theorem halves_runEncBlock (b : B16) (s : State) :
    (runEncBlock b s).halves = encBlock Config.F s.contextKeys b := by
  have hk : (List.range' 1 s.ctxRounds.toNat).map (loadHalves b s).slot = s.contextKeys := map_slot_rounds s
  rw [runEncBlock, foldl_encRound, hk]
  rfl

/-- The engine's block decryption leaves `DecBlock` of the block in `L` and `R` (41_block_primitive.md R154). -/
theorem halves_runDecBlock (c : B16) (s : State) :
    (runDecBlock c s).halves = decBlock Config.F s.contextKeys c := by
  have hk : (List.range' 1 s.ctxRounds.toNat).reverse.map (loadHalves c s).slot = s.contextKeys.reverse := by
    rw [List.map_reverse]
    exact congrArg List.reverse (map_slot_rounds s)
  rw [runDecBlock, foldl_decRound, hk]
  rfl

/-- The engine's block encryption changes `L`, `R` and `RND_IDX` only. -/
theorem runEncBlock_frame (b : B16) (s : State) :
    ∃ l r n, runEncBlock b s = { s with l := l, r := r, rndIdx := n } := by
  rw [runEncBlock, foldl_encRound]
  exact ⟨_, _, _, rfl⟩

/-- The engine's block decryption changes `L`, `R` and `RND_IDX` only. -/
theorem runDecBlock_frame (c : B16) (s : State) :
    ∃ l r n, runDecBlock c s = { s with l := l, r := r, rndIdx := n } := by
  rw [runDecBlock, foldl_decRound]
  exact ⟨_, _, _, rfl⟩

@[simp] theorem clearWork_runEncBlock (b : B16) (s : State) : (runEncBlock b s).clearWork = s.clearWork := by
  obtain ⟨l, r, n, h⟩ := runEncBlock_frame b s
  rw [h]; rfl

@[simp] theorem clearWork_runDecBlock (c : B16) (s : State) : (runDecBlock c s).clearWork = s.clearWork := by
  obtain ⟨l, r, n, h⟩ := runDecBlock_frame c s
  rw [h]; rfl

@[simp] theorem chain_runDecBlock (c : B16) (s : State) : (runDecBlock c s).chain = s.chain := by
  obtain ⟨l, r, n, h⟩ := runDecBlock_frame c s
  rw [h]

/-! ### The chaining mode -/

@[simp] theorem clearWork_startChain (iv : B16) (s : State) : (startChain iv s).clearWork = s.clearWork := rfl

theorem chain_cbcEncStep (p : B16) (s : State) :
    (cbcEncStep p s).chain = encBlock Config.F s.contextKeys (xorBytes p s.chain) :=
  halves_runEncBlock (xorBytes p s.chain) { s with blkIdx := s.blkIdx + 1 }

theorem clearWork_cbcEncStep (p : B16) (s : State) : (cbcEncStep p s).clearWork = s.clearWork :=
  clearWork_runEncBlock (xorBytes p s.chain) { s with blkIdx := s.blkIdx + 1 }

theorem unchained_cbcDecStep (c : B16) (s : State) :
    (cbcDecStep c s).unchained = xorBytes (decBlock Config.F s.contextKeys c) s.chain := by
  have h1 : (cbcDecStep c s).halves = decBlock Config.F s.contextKeys c :=
    halves_runDecBlock c { s with blkIdx := s.blkIdx + 1 }
  have h2 : (cbcDecStep c s).chain = s.chain := chain_runDecBlock c { s with blkIdx := s.blkIdx + 1 }
  rw [State.unchained, h1, h2]

theorem clearWork_cbcDecStep (c : B16) (s : State) : (cbcDecStep c s).clearWork = s.clearWork :=
  clearWork_runDecBlock c { s with blkIdx := s.blkIdx + 1 }

/-- The engine's encryption loop gives the ciphertext blocks (42_cbc_mode.md R170, R172). -/
theorem runCbcEnc_blocks (ps : List B16) (s : State) :
    (runCbcEnc ps s).1 = cbcEncBlocks Config.F s.contextKeys s.chain ps := by
  induction ps generalizing s with
  | nil => rfl
  | cons p ps ih =>
    show (cbcEncStep p s).chain :: (runCbcEnc ps (cbcEncStep p s)).1 = _
    rw [ih, contextKeys_congr (clearWork_cbcEncStep p s), chain_cbcEncStep]
    rfl

/-- The engine's encryption loop changes work registers only. -/
theorem clearWork_runCbcEnc (ps : List B16) (s : State) : (runCbcEnc ps s).2.clearWork = s.clearWork := by
  induction ps generalizing s with
  | nil => rfl
  | cons p ps ih => exact (ih (cbcEncStep p s)).trans (clearWork_cbcEncStep p s)

/-- The engine's decryption loop gives the recovered blocks (42_cbc_mode.md R176, R177). -/
theorem runCbcDec_blocks (cs : List B16) (s : State) :
    (runCbcDec cs s).1 = cbcDecBlocks Config.F s.contextKeys s.chain cs := by
  induction cs generalizing s with
  | nil => rfl
  | cons c cs ih =>
    show (cbcDecStep c s).unchained :: (runCbcDec cs { cbcDecStep c s with chain := c }).1 = _
    have hk : State.contextKeys { cbcDecStep c s with chain := c } = s.contextKeys :=
      contextKeys_congr (clearWork_cbcDecStep c s)
    rw [ih, hk, unchained_cbcDecStep]
    rfl

/-- The engine's decryption loop changes work registers only. -/
theorem clearWork_runCbcDec (cs : List B16) (s : State) : (runCbcDec cs s).2.clearWork = s.clearWork := by
  induction cs generalizing s with
  | nil => rfl
  | cons c cs ih => exact (ih { cbcDecStep c s with chain := c }).trans (clearWork_cbcDecStep c s)

/-! ### The padding codec -/

/-- The engine's scan leaves the mismatch bit in `PADACC` and changes nothing else
(43_padding_codec.md R203, R204). -/
theorem runPadScan_eq (d : List Byte) (bs : Nat) (s : State) :
    runPadScan d bs s = { s with padAcc := padBad d bs } := by
  have h : ∀ (ns : List Nat) (t : State), ns.foldl (padScanStep d) t =
      { t with padAcc := ns.foldl (fun bad k => bad || padMismatch d k) t.padAcc } := by
    intro ns
    induction ns with
    | nil => intro t; rfl
    | cons n ns ih => intro t; rw [List.foldl_cons, ih]; rfl
  rw [runPadScan, h]
  rfl

/-- The engine's `Unpad` completes as `Unpad` says: the stripped string as output, or the failure. -/
theorem finish_runUnpad (d : List Byte) (bs : Nat) (s : State) :
    finish (runUnpad d bs s) =
      match unpad d bs with
      | .error e => finish (raise e s)
      | .ok v => finish (.ok, s.output v) := by
  simp only [runUnpad, unpad, runPadScan_eq]
  cases padLengthBad d bs <;> cases padBad d bs <;> rfl

theorem runUnpad_congr {s t : State} (d : List Byte) (bs : Nat) (h : s.clearWork = t.clearWork) :
    finish (runUnpad d bs s) = finish (runUnpad d bs t) := by
  rw [finish_runUnpad, finish_runUnpad]
  cases unpad d bs with
  | error e => exact finish_congr _ h
  | ok v => exact finish_congr _ (output_congr v h)

/-! ### The commands on their inputs -/

/-- Encrypting the input completes with the envelope `CbcEncrypt` gives (42_cbc_mode.md R170, R182). -/
theorem finish_encryptInput (iv : B16) (s : State) :
    finish (encryptInput iv s) =
      finish (.ok, s.output (cbcEncrypt Config.F s.contextKeys s.inputBytes iv)) := by
  simp only [encryptInput]
  rw [finish_congr .ok (output_congr _
    ((clearWork_runCbcEnc _ _).trans (clearWork_startChain iv s))), runCbcEnc_blocks]
  rfl

/-- Decrypting the input completes as `Unpad` says of the recovered string (42_cbc_mode.md R176, R186). -/
theorem finish_decryptInput (s : State) :
    finish (decryptInput s) =
      match unpad (cbcRecover Config.F s.contextKeys s.inputBytes) Config.cbcBs with
      | .error e => finish (raise e s)
      | .ok v => finish (.ok, s.output v) := by
  simp only [decryptInput]
  rw [runUnpad_congr (t := s) _ _ ((clearWork_runCbcDec _ _).trans (clearWork_startChain _ s)),
    runCbcDec_blocks, finish_runUnpad]
  rfl

end Sys2Proof.Machine
end

