-- ==== Sys2Proof/Laws/Memory.lean ====
section
/-! SUPPORT. What the memory operations do: read after write, the canonical form, extensionality. -/

namespace Sys2Proof.Machine

open Sys2Proof

@[simp] theorem Memory.read_nil (a : Nat) : Memory.read [] a = 0 := rfl

theorem Memory.read_cons (c : Host.Cell) (m : Memory) (a : Nat) :
    Memory.read (c :: m) a = if a = c.1 then c.2 else Memory.read m a := rfl

theorem Memory.wf_nil : Memory.wf [] := by simp [Memory.wf]

theorem Memory.wf_cons {c : Host.Cell} {m : Memory} :
    Memory.wf (c :: m) ↔ (∀ d ∈ m, c.1 < d.1) ∧ c.2 ≠ 0 ∧ m.wf := by
  simp only [Memory.wf, List.pairwise_cons, List.mem_cons, forall_eq_or_imp]
  tauto

theorem Memory.wf_tail {c : Host.Cell} {m : Memory} (h : Memory.wf (c :: m)) : m.wf :=
  (Memory.wf_cons.1 h).2.2

/-- An offset that no entry has reads 0. -/
theorem Memory.read_eq_zero {m : Memory} {a : Nat} (h : ∀ c ∈ m, c.1 ≠ a) : m.read a = 0 := by
  induction m with
  | nil => rfl
  | cons c m ih =>
    rw [Memory.read_cons, if_neg fun e => h c (by simp) e.symm]
    exact ih fun d hd => h d (by simp [hd])

/-- A byte that is not 0 has an entry. -/
theorem Memory.exists_of_read_ne_zero {m : Memory} {a : Nat} (h : m.read a ≠ 0) : ∃ c ∈ m, c.1 = a := by
  by_contra hn
  exact h (Memory.read_eq_zero fun c hc e => hn ⟨c, hc, e⟩)

/-- In canonical form every entry is what its offset reads as. -/
theorem Memory.read_of_mem {m : Memory} (hm : m.wf) {c : Host.Cell} (hc : c ∈ m) : m.read c.1 = c.2 := by
  induction m with
  | nil => simp at hc
  | cons d m ih =>
    obtain ⟨hlt, -, hm'⟩ := Memory.wf_cons.1 hm
    rw [Memory.read_cons]
    rcases List.mem_cons.1 hc with rfl | hc
    · simp
    · rw [if_neg (Nat.ne_of_gt (hlt c hc)), ih hm' hc]

/-- A write leaves every other offset alone. -/
theorem Memory.read_write_other (m : Memory) {a b : Nat} (v : Byte) (h : b ≠ a) :
    (m.write a v).read b = m.read b := by
  induction m with
  | nil => unfold Memory.write; split <;> simp [Memory.read_cons, h]
  | cons c m ih =>
    obtain ⟨k, w⟩ := c
    unfold Memory.write
    split
    · split <;> simp [Memory.read_cons, h]
    · split
      · rename_i _ hk; subst hk
        split <;> simp [Memory.read_cons, h]
      · simp [Memory.read_cons, ih]

/-- A write stores the byte. -/
theorem Memory.read_write_same {m : Memory} (hm : m.wf) (a : Nat) (v : Byte) :
    (m.write a v).read a = v := by
  induction m with
  | nil => unfold Memory.write; split <;> simp_all [Memory.read_cons]
  | cons c m ih =>
    obtain ⟨k, w⟩ := c
    obtain ⟨hlt, -, hm'⟩ := Memory.wf_cons.1 hm
    unfold Memory.write
    split
    · rename_i hk
      split
      · rename_i hv; subst hv
        refine Memory.read_eq_zero fun d hd => ?_
        rcases List.mem_cons.1 hd with rfl | hd
        · exact Nat.ne_of_gt hk
        · exact Nat.ne_of_gt (Nat.lt_trans hk (hlt d hd))
      · simp [Memory.read_cons]
    · split
      · rename_i _ hk; subst hk
        split
        · rename_i hv; subst hv
          exact Memory.read_eq_zero fun d hd => Nat.ne_of_gt (hlt d hd)
        · simp [Memory.read_cons]
      · rename_i hk
        simp [Memory.read_cons, hk, ih hm']

theorem Memory.read_write {m : Memory} (hm : m.wf) (a b : Nat) (v : Byte) :
    (m.write a v).read b = if b = a then v else m.read b := by
  split
  · rename_i h; subst h; exact Memory.read_write_same hm _ _
  · rename_i h; exact Memory.read_write_other m v h

/-- The entries after a write are the old ones and the one written. -/
theorem Memory.mem_write {m : Memory} {a : Nat} {v : Byte} {c : Host.Cell} (h : c ∈ m.write a v) :
    c ∈ m ∨ (c = (a, v) ∧ v ≠ 0) := by
  induction m with
  | nil => unfold Memory.write at h; split at h <;> simp_all
  | cons d m ih =>
    obtain ⟨k, w⟩ := d
    unfold Memory.write at h
    split at h
    · split at h <;> simp_all; tauto
    · split at h
      · split at h <;> simp_all; tauto
      · rcases List.mem_cons.1 h with rfl | h
        · simp
        · rcases ih h with h | h
          · exact Or.inl (by simp [h])
          · exact Or.inr h

/-- A write keeps the canonical form. -/
theorem Memory.write_wf {m : Memory} (hm : m.wf) (a : Nat) (v : Byte) : (m.write a v).wf := by
  induction m with
  | nil => unfold Memory.write; split <;> simp_all [Memory.wf]
  | cons c m ih =>
    obtain ⟨k, w⟩ := c
    obtain ⟨hlt, hw, hm'⟩ := Memory.wf_cons.1 hm
    unfold Memory.write
    split
    · rename_i hk
      split
      · exact hm
      · rename_i hv
        refine Memory.wf_cons.2 ⟨fun d hd => ?_, hv, hm⟩
        rcases List.mem_cons.1 hd with rfl | hd
        · exact hk
        · exact Nat.lt_trans hk (hlt d hd)
    · split
      · rename_i _ hk; subst hk
        split
        · exact hm'
        · rename_i hv; exact Memory.wf_cons.2 ⟨hlt, hv, hm'⟩
      · rename_i h1 h2
        refine Memory.wf_cons.2 ⟨fun d hd => ?_, hw, ih hm'⟩
        rcases Memory.mem_write hd with hd | ⟨rfl, -⟩
        · exact hlt d hd
        · exact Nat.lt_of_le_of_ne (Nat.le_of_not_lt h1) (Ne.symm h2)

theorem Memory.writeBytes_wf {m : Memory} (hm : m.wf) (off : Nat) (vs : List Byte) :
    (m.writeBytes off vs).wf := by
  induction vs generalizing m off with
  | nil => exact hm
  | cons v vs ih => exact ih (Memory.write_wf hm off v) (off + 1)

/-- Storing a string keeps every entry below a bound that the string ends below. -/
theorem Memory.writeBytes_lt {m : Memory} {n : Nat} (hm : ∀ c ∈ m, c.1 < n) (off : Nat) (vs : List Byte)
    (hn : off + vs.length ≤ n) : ∀ c ∈ m.writeBytes off vs, c.1 < n := by
  induction vs generalizing m off with
  | nil => exact hm
  | cons v vs ih =>
    simp only [List.length_cons] at hn
    refine ih (fun c hc => ?_) (off + 1) (by omega)
    rcases Memory.mem_write hc with hc | ⟨rfl, -⟩
    · exact hm c hc
    · show off < n; omega

/-- What storing a string does to one byte. -/
theorem Memory.read_writeBytes {m : Memory} (hm : m.wf) (off : Nat) (vs : List Byte) (a : Nat) :
    (m.writeBytes off vs).read a =
      if off ≤ a ∧ a < off + vs.length then vs.getD (a - off) 0 else m.read a := by
  induction vs generalizing m off with
  | nil => simp only [Memory.writeBytes, List.length_nil]; rw [if_neg (by omega)]
  | cons v vs ih =>
    simp only [Memory.writeBytes, List.length_cons]
    rw [ih (Memory.write_wf hm off v) (off + 1), Memory.read_write hm]
    by_cases h1 : a = off
    · subst h1; rw [if_neg (by omega), if_pos rfl, if_pos (by omega)]; simp
    · by_cases h2 : off + 1 ≤ a ∧ a < off + 1 + vs.length
      · rw [if_pos h2, if_pos (by omega)]
        obtain ⟨k, rfl⟩ : ∃ k, a = off + 1 + k := ⟨a - (off + 1), by omega⟩
        simp [show off + 1 + k - off = k + 1 by omega]
      · rw [if_neg h2, if_neg h1, if_neg (by omega)]

/-- Storing a string leaves every offset outside it alone, whatever the memory's form. -/
theorem Memory.read_writeBytes_outside (m : Memory) (off : Nat) (vs : List Byte) {a : Nat}
    (h : a < off ∨ off + vs.length ≤ a) : (m.writeBytes off vs).read a = m.read a := by
  induction vs generalizing m off with
  | nil => rfl
  | cons v vs ih =>
    simp only [List.length_cons] at h
    simp only [Memory.writeBytes]
    rw [ih (m.write off v) (off + 1) (by omega), Memory.read_write_other m v (by omega)]

@[simp] theorem Memory.length_readBytes (m : Memory) (off n : Nat) : (m.readBytes off n).length = n := by
  simp [Memory.readBytes]

theorem Memory.getD_readBytes (m : Memory) (off n k : Nat) (h : k < n) :
    (m.readBytes off n).getD k 0 = m.read (off + k) := by
  simp [Memory.readBytes, List.getD_eq_getElem?_getD, h]

/-- Reading back a string just stored. -/
theorem Memory.readBytes_writeBytes {m : Memory} (hm : m.wf) (off : Nat) (vs : List Byte) :
    (m.writeBytes off vs).readBytes off vs.length = vs := by
  apply List.ext_getElem
  · simp
  · intro k h1 h2
    simp only [Memory.readBytes, List.getElem_map, List.getElem_range]
    rw [Memory.read_writeBytes hm, if_pos (by omega)]
    simp [h2]

/-- Two memories in canonical form with equal bytes are equal data. -/
theorem Memory.ext_of_read {m m' : Memory} (hm : m.wf) (hm' : m'.wf) (h : ∀ a, m.read a = m'.read a) :
    m = m' := by
  induction m generalizing m' with
  | nil =>
    cases m' with
    | nil => rfl
    | cons c m' =>
      have := h c.1
      rw [Memory.read_of_mem hm' (c := c) (by simp)] at this
      exact absurd this.symm (Memory.wf_cons.1 hm').2.1
  | cons c m ih =>
    obtain ⟨hlt, hc, hmt⟩ := Memory.wf_cons.1 hm
    cases m' with
    | nil =>
      have := h c.1
      rw [Memory.read_of_mem hm (c := c) (by simp)] at this
      exact absurd this hc
    | cons d m' =>
      obtain ⟨hlt', hd, hmt'⟩ := Memory.wf_cons.1 hm'
      have hcd : c.1 = d.1 := by
        have h1 := h c.1
        have h2 := h d.1
        rw [Memory.read_of_mem hm (c := c) (by simp)] at h1
        rw [Memory.read_of_mem hm' (c := d) (by simp)] at h2
        obtain ⟨x, hx, hxe⟩ := Memory.exists_of_read_ne_zero (m := d :: m') (a := c.1) (h1 ▸ hc)
        obtain ⟨y, hy, hye⟩ := Memory.exists_of_read_ne_zero (m := c :: m) (a := d.1) (h2.symm ▸ hd)
        rcases List.mem_cons.1 hx with rfl | hx
        · exact hxe.symm
        · rcases List.mem_cons.1 hy with rfl | hy
          · exact hye
          · have := hlt' x hx; have := hlt y hy; omega
      have hv : c.2 = d.2 := by
        have h1 := h c.1
        rw [Memory.read_of_mem hm (c := c) (by simp), hcd, Memory.read_of_mem hm' (c := d) (by simp)] at h1
        exact h1
      have hceq : c = d := Prod.ext hcd hv
      subst hceq
      congr 1
      refine ih hmt hmt' fun a => ?_
      by_cases ha : a = c.1
      · subst ha
        rw [Memory.read_eq_zero fun x hx => Nat.ne_of_gt (hlt x hx),
          Memory.read_eq_zero fun x hx => Nat.ne_of_gt (hlt' x hx)]
      · simpa [Memory.read_cons, ha] using h a

/-- Byte `k` of a word read from a memory is the byte `k` places on (20_memory.md R76). -/
theorem Memory.readWord_lane (m : Memory) (off : Nat) {k : Nat} (hk : k < 4) :
    (m.readWord off).toNat / 256 ^ k % 256 = (m.read (off + k)).toNat := by
  have e0 := (m.read off).isLt
  have e1 := (m.read (off + 1)).isLt
  have e2 := (m.read (off + 2)).isLt
  have e3 := (m.read (off + 3)).isLt
  have h : (m.readWord off).toNat = (m.read off).toNat + 256 * (m.read (off + 1)).toNat +
      65536 * (m.read (off + 2)).toNat + 16777216 * (m.read (off + 3)).toNat := by
    simp only [Memory.readWord, wordOfLanes, BitVec.toNat_append]
    rw [← Nat.shiftLeft_add_eq_or_of_lt (by omega), ← Nat.shiftLeft_add_eq_or_of_lt (by omega),
      ← Nat.shiftLeft_add_eq_or_of_lt (by omega)]
    simp only [Nat.shiftLeft_eq]
    omega
  rw [h]
  interval_cases k <;> norm_num <;> omega

/-- A word just written is the word read (20_memory.md R76). -/
theorem Memory.readWord_writeBytes {m : Memory} (hm : m.wf) (off : Nat) (w : Word) :
    (m.writeBytes off (lanesOfWord w)).readWord off = w := by
  simp only [Memory.readWord, Memory.read_writeBytes hm, lanesOfWord, List.length_cons, List.length_nil]
  rw [if_pos (by omega), if_pos (by omega), if_pos (by omega), if_pos (by omega)]
  simp only [Nat.sub_self, Nat.add_sub_cancel_left, List.getD_cons_zero, List.getD_cons_succ, wordOfLanes, laneOf]
  refine BitVec.eq_of_getLsbD_eq fun i hi => ?_
  have e : (w.extractLsb' (8 * 3) 8 ++ w.extractLsb' (8 * 2) 8 ++ w.extractLsb' (8 * 1) 8 ++
      w.extractLsb' (8 * 0) 8).getLsbD i = w.getLsbD i := by
    simp only [BitVec.getLsbD_append, BitVec.getLsbD_extractLsb']
    split
    · rename_i h; simp [h]
    · split
      · rename_i h1 h2; simp only [h2, decide_true, Bool.true_and]; congr 1; omega
      · split
        · rename_i h1 h2 h3; simp only [h3, decide_true, Bool.true_and]; congr 1; omega
        · rename_i h1 h2 h3
          rw [show decide (i - 8 - 8 - 8 < 8) = true by simp; omega, Bool.true_and]; congr 1; omega
  exact e

end Sys2Proof.Machine
end

