-- ==== Sys2Proof/Laws/Step.lean ====
section
/-! SUPPORT. What a step can do: one lemma for whose turn it is, one for what a command answers, one for
complete, one for each kind of host transfer. -/

namespace Sys2Proof.Machine

open Sys2Proof

/-! ### Whose turn it is -/

theorem step_of_nil {s : State} (h : s.inputs = []) : step s = engineTurn s.noTransfer := by
  simp only [step, h]

theorem step_of_cons {s : State} {x : Input} {rest : List Input} (h : s.inputs = x :: rest) :
    step s = takeInput x { s with inputs := rest } := by
  simp only [step, h]

/-- The engine's turn, next among the inputs or with no input left. -/
theorem step_turn {s : State} (h : s.inputs = [] ∨ s.inputs.head? = some .engine) :
    step s = engineTurn { s.noTransfer with inputs := s.inputs.tail } := by
  rcases h with h | h
  · rw [step_of_nil h, h, List.tail_nil, ← h]
    rfl
  · obtain ⟨rest, hr⟩ := List.head?_eq_some_iff.1 h
    rw [step_of_cons hr, hr]
    rfl

theorem engineTurn_idle {s : State} (h : s.busy = false) : engineTurn s = .next s := by
  simp [engineTurn, h]

theorem engineTurn_command {s : State} {i : Instr} (h : s.busy = true) (hd : decode s.cw = .ok i) :
    engineTurn s = exec i s := by
  simp [engineTurn, h, hd]

theorem engineTurn_illegal {s : State} {e : Illegal} (h : s.busy = true) (hd : decode s.cw = .error e) :
    engineTurn s = complete (raise .illegalCommand s) := by
  simp [engineTurn, h, hd]

@[simp] theorem runSteps_zero (s : State) : runSteps 0 s = .next s := rfl

theorem runSteps_succ {n : Nat} {s t : State} (h : step s = .next t) : runSteps (n + 1) s = runSteps n t := by
  have hc : Sys2Proof.core.step s = .next t := h
  simp only [runSteps, Host.Core.run]
  rw [hc]

/-! ### What a command answers -/

/-- A command completes, or it is a CBC_ENC that passed its tests and waits for its IV. -/
theorem exec_complete_or_wait (i : Instr) (s : State) :
    (∃ p, exec i s = complete p) ∨
      (i = .cbcEnc false ∧ exec i s = .next { s with phase := .waitEntropy } ∧ s.ctxValid = true ∧
        envelopeLength s.inLen.toNat ≤ Config.bufCap ∧ s.phase ≠ .run ∧ s.phase ≠ .finish) := by
  cases i with
  | keyInit => exact .inl ⟨_, rfl⟩
  | blkEnc => exact .inl ⟨_, rfl⟩
  | blkDec => exact .inl ⟨_, rfl⟩
  | cbcDec => exact .inl ⟨_, rfl⟩
  | pad => exact .inl ⟨_, rfl⟩
  | unpad => exact .inl ⟨_, rfl⟩
  | wipe => exact .inl ⟨_, rfl⟩
  | zeroize => exact .inl ⟨_, rfl⟩
  | cbcEnc ivsrc =>
    simp only [exec, execCbcEnc]
    split
    · exact .inl ⟨_, rfl⟩
    · rename_i hc
      split
      · exact .inl ⟨_, rfl⟩
      · rename_i hl
        cases ivsrc with
        | true => exact .inl ⟨_, rfl⟩
        | false =>
          have hv : s.ctxValid = true := by simpa using hc
          have hl' : envelopeLength s.inLen.toNat ≤ Config.bufCap := by omega
          cases hp : s.phase with
          | run => exact .inl ⟨encryptInput s.chain s, by simp [encryptDrawn, hp]⟩
          | finish => exact .inl ⟨raise .entropySourceUnavailable s, by simp [encryptDrawn, hp]⟩
          | idle => exact .inr ⟨rfl, by simp [encryptDrawn, hp], hv, hl', by simp, by simp⟩
          | check => exact .inr ⟨rfl, by simp [encryptDrawn, hp], hv, hl', by simp, by simp⟩
          | waitEntropy => exact .inr ⟨rfl, by simp [encryptDrawn, hp], hv, hl', by simp, by simp⟩

/-! ### Complete -/

theorem workZero_finish (p : Result × State) : WorkZero (finish p) := by
  constructor <;> simp

/-- Whatever ran, complete ends the command with its result and empty work registers
(30_encoding.md R111). -/
theorem completed_finish (p : Result × State) : Completed p.1 (finish p) :=
  ⟨by simp, by simp, by simp, workZero_finish p⟩

theorem keepsContext_finish (p : Result × State) : KeepsContext p.2 (finish p) := by
  constructor <;> simp

theorem onlyOutputChanges_refl_of {s t : State} (hc : KeepsContext s t) (hg : KeepsConfig s t)
    (hb : KeepsBus s t) (hk : t.keyLen = s.keyLen) (hkb : t.keybuf = s.keybuf) (hi : t.inLen = s.inLen)
    (hiv : t.iv = s.iv) (hib : t.ibuf = s.ibuf) : OnlyOutputChanges s t :=
  ⟨hc, hg, ⟨hk, fun a => by simp [State.byteAt, State.mem, hkb]⟩,
    ⟨hi, fun a => by simp [State.byteAt, State.mem, hiv], fun a => by simp [State.byteAt, State.mem, hib]⟩, hb⟩

/-- A failure ends the command with no output and leaves all else as it was (60_exceptions.md R256). -/
theorem failsWith_raise (e : Failure) (s : State) : FailsWith e s (finish (raise e s)) := by
  refine ⟨completed_finish (.fail e, s), ⟨rfl, fun a => rfl⟩, ?_⟩
  exact onlyOutputChanges_refl_of ⟨rfl, rfl, rfl⟩ ⟨rfl, rfl, rfl⟩ ⟨rfl, rfl, rfl⟩ rfl rfl rfl rfl rfl

/-- An output ends the command with `OK`, holds the string, and leaves all else as it was. -/
theorem finish_output {s : State} {v : List Byte} (hm : s.obuf.wf) (hv : v.length ≤ Config.bufCap) :
    Completed .ok (finish (.ok, s.output v)) ∧ WritesOutput v s (finish (.ok, s.output v)) ∧
      OnlyOutputChanges s (finish (.ok, s.output v)) := by
  have := Config.bufCap_le
  refine ⟨completed_finish (.ok, s.output v), ⟨?_, ?_, fun a ha => ?_⟩, ?_⟩
  · simp only [finish_ok_outLen, output_outLen, BitVec.toNat_ofNat]
    exact Nat.mod_eq_of_lt (by omega)
  · simp only [finish_ok_obuf, output_obuf]
    exact Memory.readBytes_writeBytes hm 0 v
  · simp only [State.byteAt, State.mem, finish_ok_obuf, output_obuf]
    exact Memory.read_writeBytes_outside _ _ _ (by omega)
  · exact onlyOutputChanges_refl_of ⟨rfl, rfl, rfl⟩ ⟨rfl, rfl, rfl⟩ ⟨rfl, rfl, rfl⟩ rfl rfl rfl rfl rfl

/-! ### The address map (20_memory.md R72, R73, R75, R79) -/

theorem space_size_le (sp : Space) : sp.size ≤ 65536 := by
  have := Config.bufCap_le
  cases sp <;> simp [Space.size] <;> omega

theorem Space.contains_iff {sp : Space} {a : Nat} :
    sp.contains a = true ↔ sp.base ≤ a ∧ a < sp.base + sp.size := by
  simp [Space.contains]

theorem Space.base_iv : Space.iv.base = 0x00040 := rfl
theorem Space.base_keybuf : Space.keybuf.base = 0x00080 := rfl
theorem Space.base_ibuf : Space.ibuf.base = 0x10000 := rfl
theorem Space.base_obuf : Space.obuf.base = 0x20000 := rfl
theorem Space.size_iv : Space.iv.size = 16 := rfl
theorem Space.size_keybuf : Space.keybuf.size = 64 := rfl
theorem Space.size_ibuf : Space.ibuf.size = Config.bufCap := rfl
theorem Space.size_obuf : Space.obuf.size = Config.bufCap := rfl

/-- The space at an address is the one that contains it. -/
theorem spaceAt_eq_some {sp : Space} {a : Nat} (h1 : sp.base ≤ a) (h2 : a < sp.base + sp.size) :
    spaceAt a = some sp := by
  have hc := Config.bufCap_le
  have hin : ∀ sp' : Space, sp'.contains a = true → sp' = sp := by
    intro sp' h'
    rw [Space.contains_iff] at h'
    cases sp <;> cases sp' <;>
      simp only [Space.base_iv, Space.base_keybuf, Space.base_ibuf, Space.base_obuf, Space.size_iv,
        Space.size_keybuf, Space.size_ibuf, Space.size_obuf] at h1 h2 h' <;>
      first | rfl | omega
  have hsp : sp.contains a = true := Space.contains_iff.2 ⟨h1, h2⟩
  unfold spaceAt
  split
  · rename_i h; rw [hin _ h]
  · split
    · rename_i h; rw [hin _ h]
    · split
      · rename_i h; rw [hin _ h]
      · split
        · rename_i h; rw [hin _ h]
        · cases sp <;> contradiction

theorem spaceAt_eq_none {a : Nat} (h : ∀ sp : Space, ¬ (sp.base ≤ a ∧ a < sp.base + sp.size)) :
    spaceAt a = none := by
  unfold spaceAt
  rw [if_neg fun e => h _ (Space.contains_iff.1 e), if_neg fun e => h _ (Space.contains_iff.1 e),
    if_neg fun e => h _ (Space.contains_iff.1 e), if_neg fun e => h _ (Space.contains_iff.1 e)]

/-- An address inside a space names its word. -/
theorem targetAt_space {sp : Space} {addr : Addr} (ha : addr.toNat % 4 = 0) (h1 : sp.base ≤ addr.toNat)
    (h2 : addr.toNat < sp.base + sp.size) : targetAt addr = some (.word sp (addr.toNat - sp.base)) := by
  have hs := space_size_le sp
  have hr : regAt addr.toNat = none := by
    cases sp <;> simp only [Space.base] at h1 <;> simp only [regAt] <;>
      repeat (first | rw [if_neg (by omega)])
  have hsp : spaceAt addr.toNat = some sp := spaceAt_eq_some h1 h2
  simp [targetAt, ha, hr, hsp]

/-- An address has no target exactly when it is misaligned or unmapped. -/
theorem targetAt_eq_none (addr : Addr) :
    targetAt addr = none ↔ addr.toNat % 4 ≠ 0 ∨ unmappedAddr addr.toNat := by
  have hlt := addr.isLt
  have hc := Config.bufCap_le
  by_cases ha : addr.toNat % 4 = 0
  · have hspace : ∀ sp : Space, sp.base ≤ addr.toNat → addr.toNat < sp.base + sp.size →
        targetAt addr ≠ none := fun sp h1 h2 => by rw [targetAt_space ha h1 h2]; simp
    constructor
    · intro hn
      refine Or.inr ?_
      by_contra hu
      simp only [unmappedAddr] at hu
      by_cases hreg : addr.toNat < 0x28
      · have : (regAt addr.toNat).isSome = true := by
          generalize addr.toNat = a at *
          interval_cases a <;> simp_all [regAt]
        obtain ⟨r, hr⟩ := Option.isSome_iff_exists.1 this
        simp [targetAt, ha, hr] at hn
      · by_cases h1 : addr.toNat < 0x50
        · exact hspace .iv (by simp [Space.base]; omega) (by simp [Space.base, Space.size]; omega) hn
        · by_cases h2 : addr.toNat < 0xC0
          · exact hspace .keybuf (by simp [Space.base]; omega) (by simp [Space.base, Space.size]; omega) hn
          · by_cases h3 : addr.toNat < 0x20000
            · exact hspace .ibuf (by simp [Space.base]; omega) (by simp [Space.base, Space.size]; omega) hn
            · exact hspace .obuf (by simp [Space.base]; omega) (by simp [Space.base, Space.size]; omega) hn
    · rintro (h | h)
      · exact absurd ha h
      · simp only [unmappedAddr] at h
        have hr : regAt addr.toNat = none := by
          simp only [regAt]
          repeat (first | rw [if_neg (by omega)])
        have hsp : spaceAt addr.toNat = none := spaceAt_eq_none fun sp => by
          cases sp <;>
            simp only [Space.base_iv, Space.base_keybuf, Space.base_ibuf, Space.base_obuf, Space.size_iv,
              Space.size_keybuf, Space.size_ibuf, Space.size_obuf] <;> omega
        simp [targetAt, ha, hr, hsp]
  · simp [targetAt, ha]

/-! ### Host transfers -/

theorem busRead_refused {s : State} {addr : Addr} (h : targetAt addr = none) : s.busRead addr = (0, true) := by
  simp [State.busRead, h]

theorem busWrite_refused {s : State} {addr : Addr} (w : Word) (h : targetAt addr = none) :
    busWrite s addr w = (s, true) := by
  simp [busWrite, h]

theorem busRead_idle {s : State} {addr : Addr} {t : Target} (h : targetAt addr = some t) (hb : s.busy = false) :
    s.busRead addr = (s.readTarget t, false) := by
  simp [State.busRead, h, hb]

theorem busWrite_idle {s : State} {addr : Addr} {t : Target} (w : Word) (h : targetAt addr = some t)
    (hb : s.busy = false) : busWrite s addr w = (writeTarget s w t, false) := by
  simp [busWrite, h, hb]

theorem busWrite_busy {s : State} {addr : Addr} {t : Target} (w : Word) (h : targetAt addr = some t)
    (hb : s.busy = true) : busWrite s addr w = (s, false) := by
  simp [busWrite, h, hb]

/-- While busy a host transfer changes the response ports only (20_memory.md R86). -/
theorem hostWrite_busy {s : State} (hb : s.busy = true) (addr : Addr) (w : Word) :
    ∃ e, hostWrite addr w s = { s with hRdata := 0, hErr := e } := by
  cases h : targetAt addr with
  | none => exact ⟨true, by simp [hostWrite, busWrite_refused w h]⟩
  | some t => exact ⟨false, by simp [hostWrite, busWrite_busy w h hb]⟩

end Sys2Proof.Machine
end

