-- ==== Sys2Proof/Laws/Commands.lean ====
section
/-! SUPPORT. One lemma for each command: what it answers, in terms of the pure functions. A proof about a
command cites its lemma and never unfolds the engine's loops. -/

namespace Sys2Proof.Machine

open Sys2Proof

/-! ### Lengths and pad counts -/

@[simp] theorem length_inputBytes (s : State) : s.inputBytes.length = s.inLen.toNat := by
  simp [State.inputBytes, State.memRead]

@[simp] theorem length_keyBytes (s : State) : s.keyBytes.length = s.keyLen.toNat := by
  simp [State.keyBytes, State.memRead]

@[simp] theorem length_cbcEncBlocks (F : B8 → B16 → B8) (ks : List B16) (iv : B16) (bs : List B16) :
    (cbcEncBlocks F ks iv bs).length = bs.length := by
  induction bs generalizing iv with
  | nil => rfl
  | cons b bs ih => simp [cbcEncBlocks, ih]

@[simp] theorem length_cbcDecBlocks (F : B8 → B16 → B8) (ks : List B16) (iv : B16) (bs : List B16) :
    (cbcDecBlocks F ks iv bs).length = bs.length := by
  induction bs generalizing iv with
  | nil => rfl
  | cons b bs ih => simp [cbcDecBlocks, ih]

/-- The clause of the source for a pad count of 0 is never taken (90_conflicts.md C2). -/
theorem padCount_eq {m bs : Nat} (h : 1 ≤ bs) : padCount m bs = bs - m % bs := by
  have := Nat.mod_lt m h
  unfold padCount; split <;> omega

/-! ### The spaces -/

theorem memoriesWf_setMem {s : State} (h : MemoriesWf s) (sp : Space) {m : Memory} (hm : m.wf)
    (hb : ∀ c ∈ m, c.1 < sp.size) : MemoriesWf (s.setMem sp m) := by
  constructor
  · intro sp'
    have := h.wf sp'
    cases sp <;> cases sp' <;> first | exact this | exact hm
  · intro sp'
    have := h.bound sp'
    cases sp <;> cases sp' <;> first | exact this | exact hb

theorem memoriesWf_congr {s t : State} (h : MemoriesWf s) (h1 : t.iv = s.iv) (h2 : t.keybuf = s.keybuf)
    (h3 : t.ibuf = s.ibuf) (h4 : t.obuf = s.obuf) : MemoriesWf t := by
  have e : ∀ sp, t.mem sp = s.mem sp := fun sp => by cases sp <;> assumption
  exact ⟨fun sp => by rw [e]; exact h.wf sp, fun sp => by rw [e]; exact h.bound sp⟩

/-- A target in a space is a whole word of it. -/
theorem targetAt_word {addr : Addr} {sp : Space} {off : Nat} (h : targetAt addr = some (.word sp off)) :
    off + 4 ≤ sp.size ∧ off % 4 = 0 ∧ addr.toNat = sp.base + off := by
  have hc := Config.bufCap_mod
  unfold targetAt at h
  split at h
  · cases h
  · split at h
    · cases h
    · rename_i h4 _ _
      obtain ⟨sp', hs, e⟩ := Option.map_eq_some_iff.1 h
      cases e
      have hin : sp.contains addr.toNat = true := by
        unfold spaceAt at hs
        repeat' split at hs
        all_goals first
          | (cases hs; assumption)
          | cases hs
      rw [Space.contains_iff] at hin
      cases sp <;> simp only [Space.base, Space.size] at * <;> omega

/-! ### The commands -/

theorem exec_keyInit (s : State) :
    exec .keyInit s = .next (finish (dropKey
      (if s.ctxValid then raise .illegalCommand s
       else if keyOperandsBad s.keyLen.toNat s.rounds.toNat then raise .invalidKey s
       else (.ok, createContext s)))) := rfl

theorem exec_blkEnc (s : State) :
    exec .blkEnc s = .next (finish
      (if !s.ctxValid then raise .illegalCommand s
       else (.ok, s.output (encBlock Config.F s.contextKeys s.inputBlock).toList))) := by
  simp only [exec, execBlkEnc, complete]
  split
  · rfl
  · rw [outputHalves, halves_runEncBlock]
    exact congrArg _ (finish_congr .ok (output_congr _ (clearWork_runEncBlock _ _)))

theorem exec_blkDec (s : State) :
    exec .blkDec s = .next (finish
      (if !s.ctxValid then raise .illegalCommand s
       else (.ok, s.output (decBlock Config.F s.contextKeys s.inputBlock).toList))) := by
  simp only [exec, execBlkDec, complete]
  split
  · rfl
  · rw [outputHalves, halves_runDecBlock]
    exact congrArg _ (finish_congr .ok (output_congr _ (clearWork_runDecBlock _ _)))

/-- CBC_ENC with the IV of the register. -/
theorem exec_cbcEnc_supplied (s : State) :
    exec (.cbcEnc true) s = .next (finish
      (if !s.ctxValid then raise .illegalCommand s
       else if Config.bufCap < envelopeLength s.inLen.toNat then raise .allocationFailure s
       else (.ok, s.output (cbcEncrypt Config.F s.contextKeys s.inputBytes s.ivBlock)))) := by
  simp only [exec, execCbcEnc, complete]
  split
  · rfl
  · split
    · rfl
    · show Host.Outcome.next (finish (encryptInput s.ivBlock s)) = _
      rw [finish_encryptInput]

/-- CBC_ENC with a drawn IV: it fails its tests, or it waits, or it completes with what was drawn. -/
theorem exec_cbcEnc_drawn (s : State) :
    exec (.cbcEnc false) s =
      if !s.ctxValid then .next (finish (raise .illegalCommand s))
      else if Config.bufCap < envelopeLength s.inLen.toNat then .next (finish (raise .allocationFailure s))
      else if s.phase = .run then
        .next (finish (.ok, s.output (cbcEncrypt Config.F s.contextKeys s.inputBytes s.chain)))
      else if s.phase = .finish then .next (finish (raise .entropySourceUnavailable s))
      else .next { s with phase := .waitEntropy } := by
  simp only [exec, execCbcEnc, complete]
  split
  · rfl
  · split
    · rfl
    · unfold encryptDrawn
      cases hp : s.phase with
      | run =>
        show Host.Outcome.next (finish (encryptInput s.chain s)) = _
        rw [finish_encryptInput]; rfl
      | _ => rfl

theorem exec_cbcDec (s : State) :
    exec .cbcDec s = .next
      (if !s.ctxValid then finish (raise .illegalCommand s)
       else if !validEnvelopeLength s.inLen.toNat then finish (raise .invalidLength s)
       else if Config.bufCap < s.inLen.toNat then finish (raise .allocationFailure s)
       else
        match unpad (cbcRecover Config.F s.contextKeys s.inputBytes) Config.cbcBs with
        | .error e => finish (raise e s)
        | .ok v => finish (.ok, s.output v)) := by
  simp only [exec, execCbcDec, complete]
  split
  · rfl
  · split
    · rfl
    · split
      · rfl
      · exact congrArg _ (finish_decryptInput s)

theorem exec_pad (s : State) :
    exec .pad s = .next (finish
      (if s.bsize = 0 then raise .illegalCommand s
       else if Config.bufCap < paddedLength s.inLen.toNat s.bsize.toNat then raise .allocationFailure s
       else (.ok, s.output (pad s.inputBytes s.bsize.toNat)))) := rfl

theorem exec_unpad (s : State) :
    exec .unpad s = .next
      (if s.bsize = 0 then finish (raise .illegalCommand s)
       else if Config.bufCap < s.inLen.toNat then finish (raise .allocationFailure s)
       else
        match unpad s.inputBytes s.bsize.toNat with
        | .error e => finish (raise e s)
        | .ok v => finish (.ok, s.output v)) := by
  simp only [exec, execUnpad, complete]
  split
  · rfl
  · split
    · rfl
    · exact congrArg _ (finish_runUnpad _ _ s)

theorem exec_wipe (s : State) : exec .wipe s = .next (finish (.ok, wipeBuffers s)) := rfl

theorem exec_zeroize (s : State) :
    exec .zeroize s = .next (finish (.ok, dropContext (wipeBuffers s))) := rfl

end Sys2Proof.Machine
end

