-- ==== Sys2Proof/Laws/Decode.lean ====
section
/-! SUPPORT. The fields of a command word, as numbers and put together again. -/

namespace Sys2Proof

theorem toNat_opcodeOf (w : Word) : (opcodeOf w).toNat = w.toNat % 256 := by
  simp [opcodeOf, BitVec.extractLsb'_toNat]

theorem toNat_reservedOf (w : Word) : (reservedOf w).toNat = w.toNat / 512 := by
  have := w.isLt
  simp only [reservedOf, BitVec.extractLsb'_toNat, Nat.shiftRight_eq_div_pow]
  omega

theorem ivsrcOf_iff (w : Word) : ivsrcOf w = true ↔ w.toNat / 256 % 2 = 1 := by
  simp [ivsrcOf, BitVec.getLsbD, Nat.testBit_eq_decide_div_mod_eq]

/-- A word is put together from its fields (30_encoding.md R101). -/
theorem packFields_fieldsOf (w : Word) : packFields (fieldsOf w) = w := by
  refine BitVec.eq_of_getLsbD_eq fun i hi => ?_
  have e : (reservedOf w ++ BitVec.ofBool (ivsrcOf w) ++ opcodeOf w).getLsbD i = w.getLsbD i := by
    simp only [BitVec.getLsbD_append, reservedOf, opcodeOf, ivsrcOf, BitVec.getLsbD_extractLsb',
      BitVec.getLsbD_ofBool]
    split
    · rename_i h; simp [h]
    · split
      · rename_i h1 h2
        have : i = 8 := by omega
        subst this; simp
      · rename_i h1 h2
        rw [show decide (i - 8 - 1 < 23) = true by simp; omega, Bool.true_and]; congr 1; omega
  exact e

@[simp] theorem opcodeOf_packFields (f : CommandFields) : opcodeOf (packFields f) = f.opcode := by
  refine BitVec.eq_of_getLsbD_eq fun i hi => ?_
  have e : ((f.reserved ++ BitVec.ofBool f.ivsrc ++ f.opcode).extractLsb' 0 8).getLsbD i =
      f.opcode.getLsbD i := by
    simp only [BitVec.getLsbD_append, BitVec.getLsbD_extractLsb', hi, decide_true, Bool.true_and, Nat.zero_add,
      if_true]
  exact e

@[simp] theorem ivsrcOf_packFields (f : CommandFields) : ivsrcOf (packFields f) = f.ivsrc := by
  have e : (f.reserved ++ BitVec.ofBool f.ivsrc ++ f.opcode).getLsbD 8 = f.ivsrc := by
    simp only [BitVec.getLsbD_append, BitVec.getLsbD_ofBool]
    simp
  exact e

@[simp] theorem reservedOf_packFields (f : CommandFields) : reservedOf (packFields f) = f.reserved := by
  refine BitVec.eq_of_getLsbD_eq fun i hi => ?_
  have e : ((f.reserved ++ BitVec.ofBool f.ivsrc ++ f.opcode).extractLsb' 9 23).getLsbD i =
      f.reserved.getLsbD i := by
    simp only [BitVec.getLsbD_append, BitVec.getLsbD_extractLsb', hi, decide_true, Bool.true_and]
    rw [if_neg (by omega), if_neg (by omega)]; congr 1; omega
  exact e

/-- The fields put into a word are the fields read from it. -/
theorem fieldsOf_packFields (f : CommandFields) : fieldsOf (packFields f) = f := by
  simp [fieldsOf]

/-- What an opcode decodes to, with every other field as the format asks. -/
theorem decode_packFields {op : BitVec 8} {v : Bool} (h : v = true → op = 0x04) :
    decode (packFields ⟨op, v, 0⟩) = decodeOpcode op v := by
  simp only [decode, reservedOf_packFields, ivsrcOf_packFields, opcodeOf_packFields]
  rw [if_neg (by simp), if_neg (by rintro ⟨hv, hop⟩; exact hop (h hv))]

/-- A decoded word is the command of its opcode, and its other fields are as the format asks. -/
theorem decode_ok {w : Word} {i : Instr} (h : decode w = .ok i) :
    reservedOf w = 0 ∧ (ivsrcOf w = true → opcodeOf w = 0x04) ∧
      decodeOpcode (opcodeOf w) (ivsrcOf w) = .ok i := by
  unfold decode at h
  split at h
  · cases h
  · split at h
    · cases h
    · rename_i h1 h2
      exact ⟨by simpa using h1, fun hv => by by_contra hn; exact h2 ⟨hv, hn⟩, h⟩

/-- The opcode and the `IVSRC` of a decoded opcode are the command's fields. -/
theorem decodeOpcode_ok {op : BitVec 8} {v : Bool} {i : Instr} (h : decodeOpcode op v = .ok i) :
    op = i.fields.opcode ∧ (op = 0x04 → v = i.fields.ivsrc) ∧ (op ≠ 0x04 → i.fields.ivsrc = false) ∧
      i.fields.reserved = 0 := by
  unfold decodeOpcode at h
  repeat' split at h
  all_goals
    first
    | (cases h; subst_vars; simp [Instr.fields])
    | cases h

end Sys2Proof
end

