-- ==== Sys2Proof/Laws/PerInstr.lean ====
section
/-! SUPPORT. The families of statements made command by command. -/

namespace Sys2Proof.Laws

open Sys2Proof

/-- A command's fields pass the three checks of the format, its word agrees with its row of the table
under the row's mask, and the word decodes to it (30_encoding.md R101, R104, R107). -/
def TableRow.Statement (i : Instr) : Prop :=
  i.wellFormed = true ∧ encode i &&& tableMask i = tableMatch i ∧ decode (encode i) = .ok i

theorem TableRow.keyInit : TableRow.Statement .keyInit := by unfold TableRow.Statement; decide

theorem TableRow.blkEnc : TableRow.Statement .blkEnc := by unfold TableRow.Statement; decide

theorem TableRow.blkDec : TableRow.Statement .blkDec := by unfold TableRow.Statement; decide

theorem TableRow.cbcEnc (ivsrc : Bool) : TableRow.Statement (.cbcEnc ivsrc) := by
  unfold TableRow.Statement; cases ivsrc <;> decide

theorem TableRow.cbcDec : TableRow.Statement .cbcDec := by unfold TableRow.Statement; decide

theorem TableRow.pad : TableRow.Statement .pad := by unfold TableRow.Statement; decide

theorem TableRow.unpad : TableRow.Statement .unpad := by unfold TableRow.Statement; decide

theorem TableRow.wipe : TableRow.Statement .wipe := by unfold TableRow.Statement; decide

theorem TableRow.zeroize : TableRow.Statement .zeroize := by unfold TableRow.Statement; decide

end Sys2Proof.Laws
end

