-- ==== Sys2Proof/Tests/Slice0.lean ====
section
/-! SUPPORT. Tests. Expected values are written out from spec/ (30_encoding.md R104 for the words,
95_test_vectors.md for the results), never from this model. After them, for every statement with
hypotheses, a concrete state and operands that meet them. -/

namespace Sys2Proof.Tests

open Sys2Proof Sys2Proof.Machine

/-! ### WellFormed: a term that each check refuses -/

theorem test_wellFormed_pad : CommandFields.wellFormed ⟨0x06, false, 0⟩ = true := by decide
theorem test_refuse_reservedBit9 : CommandFields.reservedZero ⟨0x06, false, 1⟩ = false := by decide
theorem test_refuse_reservedBit31 : CommandFields.wellFormed ⟨0x06, false, 0x400000⟩ = false := by decide
theorem test_refuse_ivsrc_on_pad : CommandFields.ivsrcAllowed ⟨0x06, true, 0⟩ = false := by decide
theorem test_refuse_opcode_00 : CommandFields.opcodeNamed ⟨0x00, false, 0⟩ = false := by decide
theorem test_refuse_opcode_0A : CommandFields.opcodeNamed ⟨0x0A, false, 0⟩ = false := by decide

/-! ### Decode: words written out bit by bit from R101 and R104 (bits 31 to 9, bit 8, bits 7 to 0) -/

theorem test_decode_keyInit : decode 0b00000000000000000000000_0_00000001 = .ok .keyInit := by decide
theorem test_decode_blkEnc : decode 0b00000000000000000000000_0_00000010 = .ok .blkEnc := by decide
theorem test_decode_blkDec : decode 0b00000000000000000000000_0_00000011 = .ok .blkDec := by decide
theorem test_decode_cbcEnc : decode 0b00000000000000000000000_0_00000100 = .ok (.cbcEnc false) := by decide
theorem test_decode_cbcEncIv : decode 0b00000000000000000000000_1_00000100 = .ok (.cbcEnc true) := by decide
theorem test_decode_cbcDec : decode 0b00000000000000000000000_0_00000101 = .ok .cbcDec := by decide
theorem test_decode_pad : decode 0b00000000000000000000000_0_00000110 = .ok .pad := by decide
theorem test_decode_unpad : decode 0b00000000000000000000000_0_00000111 = .ok .unpad := by decide
theorem test_decode_wipe : decode 0b00000000000000000000000_0_00001000 = .ok .wipe := by decide
theorem test_decode_zeroize : decode 0b00000000000000000000000_0_00001001 = .ok .zeroize := by decide
theorem test_decode_opcode_0A : decode 0x0000000A = .error .unknownOpcode := by decide
theorem test_decode_ivsrc_on_cbcDec : decode 0x00000105 = .error .ivsrcNotAllowed := by decide
theorem test_decode_reserved_bit9 : decode 0x00000204 = .error .reservedBits := by decide
theorem test_decode_allOnes : decode 0xFFFFFFFF = .error .reservedBits := by decide
theorem test_decodeTableWord_wipe : decodeTableWord 32 0x00000008 = some .wipe := by decide

/-! ### The test-only functions of 95_test_vectors.md section 2 -/

/-- A block from its bytes. -/
def b16 (s : List Byte) : B16 := blockAt s 0

/-- `F_ref`. -/
def fRef (r : B8) (k : B16) : B8 :=
  Vector.ofFn fun j => (((r.toList.getD ((j.val + 1) % 8) 0 ^^^ k[j.val]) + k[8 + j.val]).rotateLeft 3)

/-- `F_zero`. -/
def fZero (_ : B8) (_ : B16) : B8 := B8.zero

/-- `00 01 .. 0f`. -/
def countUp : B16 := b16 [0, 1, 2, 3, 4, 5, 6, 7, 8, 9, 10, 11, 12, 13, 14, 15]

/-- `RK[1]` and `RK[2]` of V-KS-1. -/
def rk1 : B16 := b16 [0x62, 0x66, 0x70, 0x66, 0x6c, 0x72, 0x67, 0x79, 0x73, 0x36, 0x75, 0x70, 0x85, 0x6f, 0x73, 0x7d]
def rk2 : B16 := b16 [0x73, 0x79, 0x7f, 0x74, 0x86, 0x80, 0x43, 0x82, 0x7d, 0x92, 0x7c, 0x80, 0x8a, 0x80, 0x86, 0x8c]

/-- V-BLK-2. -/
theorem test_encBlock_two_rounds : encBlock fRef [rk1, rk2] countUp =
    b16 [0xf6, 0x14, 0x85, 0xd5, 0x33, 0x5a, 0xd8, 0x70, 0x2f, 0x7d, 0x3b, 0x35, 0x3f, 0xcb, 0xc3, 0x0f] := by
  decide

/-- V-BLK-2 backwards. -/
theorem test_decBlock_two_rounds : decBlock fRef [rk1, rk2]
    (b16 [0xf6, 0x14, 0x85, 0xd5, 0x33, 0x5a, 0xd8, 0x70, 0x2f, 0x7d, 0x3b, 0x35, 0x3f, 0xcb, 0xc3, 0x0f]) =
      countUp := by
  decide

/-- "My secret message". -/
def message : List Byte :=
  [0x4d, 0x79, 0x20, 0x73, 0x65, 0x63, 0x72, 0x65, 0x74, 0x20, 0x6d, 0x65, 0x73, 0x73, 0x61, 0x67, 0x65]

/-- The envelope of V-CBC-7: pure chaining, with a round function that is 0 and an even round count. -/
def envelope7 : List Byte :=
  [0xa0, 0xa1, 0xa2, 0xa3, 0xa4, 0xa5, 0xa6, 0xa7, 0xa8, 0xa9, 0xaa, 0xab, 0xac, 0xad, 0xae, 0xaf,
   0xed, 0xd8, 0x82, 0xd0, 0xc1, 0xc6, 0xd4, 0xc2, 0xdc, 0x89, 0xc7, 0xce, 0xdf, 0xde, 0xcf, 0xc8,
   0x88, 0xd7, 0x8d, 0xdf, 0xce, 0xc9, 0xdb, 0xcd, 0xd3, 0x86, 0xc8, 0xc1, 0xd0, 0xd1, 0xc0, 0xc7]

/-- V-CBC-7. -/
theorem test_cbcEncrypt_chains : cbcEncrypt fZero [rk1, rk2] message (blockAt envelope7 0) = envelope7 := by
  decide

/-- V-CBC-7 backwards. -/
theorem test_cbcDecrypt_chains : cbcDecrypt fZero [rk1, rk2] envelope7 = .ok message := by decide

/-! ### The padding codec: V-PAD-P, V-PAD-U -/

theorem test_pad_five_of_eight : pad [0x41, 0x42, 0x43, 0x44, 0x45] 8 =
    [0x41, 0x42, 0x43, 0x44, 0x45, 3, 3, 3] := by decide
theorem test_pad_aligned_adds_a_block : pad [1, 2] 2 = [1, 2, 2, 2] := by decide
theorem test_unpad_count_one : unpad [0x41, 0x41, 0x41, 0x41, 0x41, 3, 3, 1] 8 =
    .ok [0x41, 0x41, 0x41, 0x41, 0x41, 3, 3] := by decide
theorem test_unpad_mismatch : unpad [0x41, 0x42, 0x43, 0x44, 0x45, 3, 3, 2] 8 = .error .invalidPadding := by
  decide

/-! ### One step of each command from reset: V-ENC -/

/-- `STATUS` after the step that runs a word as the first command after reset. -/
def statusAfter (w : Nat) : Option Word :=
  match step (State.reset.withFetchWord 32 w) with
  | .next t => some t.statusWord
  | .fault _ => none
  | .refused _ => none

theorem test_first_keyInit : statusAfter 0x00000001 = some 0x00000012 := by decide
theorem test_first_blkEnc : statusAfter 0x00000002 = some 0x00000062 := by decide
theorem test_first_blkDec : statusAfter 0x00000003 = some 0x00000062 := by decide
theorem test_first_cbcEnc : statusAfter 0x00000004 = some 0x00000062 := by decide
theorem test_first_cbcDec : statusAfter 0x00000005 = some 0x00000062 := by decide
theorem test_first_unpad : statusAfter 0x00000007 = some 0x00000032 := by decide
theorem test_first_wipe : statusAfter 0x00000008 = some 0x00000002 := by decide
theorem test_first_zeroize : statusAfter 0x00000009 = some 0x00000002 := by decide
theorem test_first_illegal : statusAfter 0x00010008 = some 0x00000062 := by decide

/-- PAD of the empty input with `BSIZE` 16: sixteen bytes of value 16. -/
theorem test_first_pad : step (State.reset.withFetchWord 32 0x00000006) =
    .next { State.reset with done := true, outLen := 16, obuf := (List.range 16).map fun k => (k, 0x10) } := rfl

/-! ### A context, a command that waits, and the host's view of them -/

/-- One slot in use. -/
def slots : Vector B16 32 := Vector.ofFn fun i => if i.val = 0 then rk1 else B16.zero

/-- After KEY_INIT with one round and a command whose output is still there. -/
def withContext : State :=
  { State.reset with
      ctxValid := true, ctxRounds := 1, rk := slots, done := true, irqEn := true, iv := [(3, 9)],
      ibuf := [(0, 0x68), (1, 0x69)], inLen := 2, obuf := [(0, 7)], outLen := 1 }

/-- A CBC_ENC with `IVSRC = 0` that has raised `ent_req`. -/
def waiting : State :=
  { accept 0x00000004 withContext with
      phase := .waitEntropy, inputs := [.engine, .read 0x0000C, .write 0x00008 0x00000009] }

/-- P2 and P4: `STATUS` with a context of one round, idle and waiting. -/
theorem test_status_idle : withContext.statusWord = 0x00000106 := by decide
theorem test_status_waiting : waiting.statusWord = 0x00000105 ∧ waiting.entReq = true := by decide

/-- V-BUS: what the host reads. -/
theorem test_read_id : State.reset.busRead 0x00000 = (0x43444201, false) := by decide
theorem test_read_misaligned : State.reset.busRead 0x00002 = (0, true) := by decide
theorem test_read_gated : waiting.busRead 0x0001C = (0, false) := by decide
theorem test_write_ack : ((busWrite withContext 0x0000C 0xFFFFFFFF).1).statusWord = 0x00000104 := by decide
theorem test_write_rounds : ((busWrite State.reset 0x00010 0xFFFFFF05).1).rounds = 0x05 := by decide

/-! ### Witnesses: the invariant in states of every kind -/

theorem slot_slots {i : Nat} (h1 : 1 < i) (h2 : i ≤ 32) : slots[i - 1]?.getD B16.zero = B16.zero := by
  rw [Vector.getElem?_eq_getElem (by omega)]
  simp only [slots, Vector.getElem_ofFn, Option.getD_some]
  rw [if_neg (by omega)]

theorem memories_withContext : MemoriesWf withContext := by
  have := Config.bufCap_ge
  constructor
  · intro sp; cases sp <;> decide
  · intro sp
    cases sp <;> simp [State.mem, withContext, State.reset, Space.size] <;> omega

theorem inv_withContext : withContext.Inv where
  notBusyAndDone := by decide
  busyPhase := by decide
  context := by decide
  noContext := by decide
  unusedSlots := fun _ h1 h2 => slot_slots h1 h2
  outputEnds := by decide
  outputFits := by have := Config.bufCap_ge; show 1 ≤ _; omega
  idleWork := fun _ => ⟨rfl, rfl, rfl, rfl, rfl, rfl, rfl, rfl⟩
  busyClean := fun h => by cases h
  drawing := by rintro (h | h | h) <;> cases h
  failureNoOutput := fun h => absurd rfl h
  memories := memories_withContext

theorem inv_waiting : waiting.Inv where
  notBusyAndDone := by decide
  busyPhase := by decide
  context := by decide
  noContext := by decide
  unusedSlots := fun _ h1 h2 => slot_slots h1 h2
  outputEnds := by decide
  outputFits := Nat.zero_le _
  idleWork := fun h => by cases h
  busyClean := fun _ => ⟨rfl, rfl, rfl, rfl, rfl, rfl, rfl, rfl, fun _ => rfl⟩
  drawing := fun _ =>
    ⟨by decide, rfl, by have := Config.bufCap_ge; show 32 ≤ Config.bufCap; omega⟩
  failureNoOutput := fun _ => rfl
  memories := by
    have := Config.bufCap_ge
    constructor
    · intro sp; cases sp <;> decide
    · intro sp
      cases sp <;> simp [State.mem, waiting, accept, withContext, State.reset, Space.size]
      omega

/-! ### Witnesses: one or more for each statement with hypotheses, by the statement's name -/

theorem unmapped_low : unmappedAddr 0x00028 ∧ unmappedAddr 0x0003C ∧ unmappedAddr 0x00050 ∧
    unmappedAddr 0x0007C ∧ unmappedAddr 0x000C0 ∧ unmappedAddr 0x0FFFC ∧ unmappedAddr 0x30000 ∧
    unmappedAddr 0x3FFFC := by
  simp [unmappedAddr]

theorem mapped_ends : ¬ unmappedAddr 0x00000 ∧ ¬ unmappedAddr 0x00024 ∧ ¬ unmappedAddr 0x00040 ∧
    ¬ unmappedAddr 0x0004C ∧ ¬ unmappedAddr 0x00080 ∧ ¬ unmappedAddr 0x000BC ∧ ¬ unmappedAddr 0x10000 ∧
    ¬ unmappedAddr 0x1002C ∧ ¬ unmappedAddr 0x20000 ∧ ¬ unmappedAddr 0x2002C := by
  have := Config.bufCap_ge
  simp only [unmappedAddr]
  omega

/-- A state with other inputs to come. -/
def before (xs : List Input) (s : State) : State := { s with inputs := xs }

/-- A command accepted in `withContext`, and what comes next. -/
def busyWith (w : Word) (xs : List Input) : State := before xs (accept w withContext)

theorem witness_StepRunsDecodedCommand :
    (busyWith 0x00000008 []).busy = true ∧ decode (busyWith 0x00000008 []).cw = .ok .wipe ∧
    (busyWith 0x00000008 []).inputs = [] ∧
    (busyWith 0x00000104 [.engine, .reset]).busy = true ∧
    decode (busyWith 0x00000104 [.engine, .reset]).cw = .ok (.cbcEnc true) ∧
    (busyWith 0x00000104 [.engine, .reset]).inputs = .engine :: [.reset] := by decide

theorem witness_IllegalWordCompletesWithIllegalCommand :
    (busyWith 0x00000201 [.engine]).busy = true ∧
    decode (busyWith 0x00000201 [.engine]).cw = .error .reservedBits ∧
    (busyWith 0x00000201 [.engine]).inputs.head? = some .engine ∧
    decode (busyWith 0x0000010A []).cw = .error .ivsrcNotAllowed ∧
    (busyWith 0x0000010A []).busy = true ∧ (busyWith 0x0000010A []).inputs = [] := by decide

theorem witness_InvKeptByEveryStep :
    (withContext.Inv ∧ ∃ t, step withContext = .next t) ∧ (waiting.Inv ∧ ∃ t, step waiting = .next t) :=
  ⟨⟨inv_withContext, _, rfl⟩, inv_waiting, _, rfl⟩

theorem witness_InvGivesTheGlobalInvariants : withContext.Inv ∧ waiting.Inv := ⟨inv_withContext, inv_waiting⟩

theorem witness_EngineTurnCompletesTheCommand :
    ((busyWith 0x00000002 []).busy = true ∧ (busyWith 0x00000002 []).inputs = [] ∧
      decode (busyWith 0x00000002 []).cw ≠ .ok (.cbcEnc false)) ∧
    (let s := { busyWith 0x00000004 [] with phase := .run }
     s.busy = true ∧ s.inputs = [] ∧ decode s.cw = .ok (.cbcEnc false) ∧ s.phase = .run) ∧
    (let s := busyWith 0x00000007 [.engine, .reset]
     s.busy = true ∧ s.inputs.head? = some .engine ∧ decode s.cw = .ok .unpad) ∧
    (let s := { busyWith 0x00000004 [] with ctxValid := false }
     s.busy = true ∧ s.inputs = [] ∧ decode s.cw = .ok (.cbcEnc false) ∧ s.ctxValid = false) := by decide

theorem witness_UnansweredRequestWaitsForEver :
    waiting.Inv ∧ waiting.phase = .waitEntropy ∧ ∀ x ∈ waiting.inputs, x.silent = true :=
  ⟨inv_waiting, rfl, by decide⟩

theorem witness_CommandIsAtomicToTheHost :
    let xs : List Input := [.read 0x0000C, .write 0x00008 0x00000009, .write 0x10001 0]
    let s := busyWith 0x00000006 (xs ++ .engine :: [.reset])
    s.busy = true ∧ (∀ x ∈ xs, x.isTransfer = true) ∧ s.inputs = xs ++ .engine :: [.reset] := by decide

theorem witness_ResetFromAnyState :
    (before [.reset, .engine] waiting).inputs = .reset :: [.engine] := rfl

theorem witness_ContextIsImmutable :
    (let s := before [.write 0x00008 0x00000001] withContext
     s.ctxValid = true ∧ ∃ t, step s = .next t) ∧
    (let s := before [.reset] withContext
     s.ctxValid = true ∧ ∃ t, step s = .next t) ∧
    (let s := busyWith 0x00000009 []
     s.ctxValid = true ∧ ∃ t, step s = .next t) :=
  ⟨⟨rfl, _, rfl⟩, ⟨rfl, _, rfl⟩, rfl, _, rfl⟩

/-- CBC_DEC of two bytes (R175), and KEY_INIT with a context (R132). -/
theorem witness_FailedCommandEffects :
    (∃ t, (busyWith 0x00000005 []).busy = true ∧ step (busyWith 0x00000005 []) = .next t ∧ t.busy = false ∧
      t.err = .fail .invalidLength ∧ decode (busyWith 0x00000005 []).cw ≠ .ok .keyInit) ∧
    (∃ t, (busyWith 0x00000001 []).busy = true ∧ step (busyWith 0x00000001 []) = .next t ∧ t.busy = false ∧
      t.err = .fail .illegalCommand ∧ decode (busyWith 0x00000001 []).cw = .ok .keyInit) :=
  ⟨⟨_, rfl, rfl, rfl, rfl, by decide⟩, ⟨_, rfl, rfl, rfl, rfl, by decide⟩⟩

theorem witness_BusErrorExactlyWhenMisalignedOrUnmapped :
    (before [.read 0x00002] waiting).inputs = .read 0x00002 :: [] ∧ (0x00002 : Addr).toNat % 4 ≠ 0 ∧
    (before [.write 0x30000 5] waiting).inputs = .write 0x30000 5 :: [] ∧
    unmappedAddr (0x30000 : Addr).toNat ∧ unmappedAddr (0x00028 : Addr).toNat ∧
    ((0x00024 : Addr).toNat % 4 = 0 ∧ ¬ unmappedAddr (0x00024 : Addr).toNat) ∧
    ((0x10000 : Addr).toNat % 4 = 0 ∧ ¬ unmappedAddr (0x10000 : Addr).toNat) :=
  ⟨rfl, by decide, rfl, unmapped_low.2.2.2.2.2.2.1, unmapped_low.1, ⟨by decide, mapped_ends.2.1⟩,
    by decide, mapped_ends.2.2.2.2.2.2.1⟩

/-- The clauses on idle reads: the first and the last register and the ends of the four spaces (those of
IBUF and OBUF at the smallest capacity), read in an idle state. -/
theorem witness_BusErrorExactlyWhenMisalignedOrUnmapped_idle_reads :
    ∀ a ∈ ([0x00000, 0x00024, 0x00040, 0x0004C, 0x00080, 0x000BC, 0x10000, 0x1002C, 0x20000, 0x2002C] : List Addr),
      (before [.read a] withContext).busy = false ∧ (before [.read a] withContext).inputs = .read a :: [] ∧
      a.toNat % 4 = 0 ∧ ¬ unmappedAddr a.toNat := by
  have h := mapped_ends
  simp only [List.forall_mem_cons]
  simpa [before, withContext, State.reset] using h

theorem witness_BusyGatesTheHost :
    (before [.read 0x0000C] waiting).busy = true ∧ (0x0000C : Addr).toNat % 4 = 0 ∧
    ¬ unmappedAddr (0x0000C : Addr).toNat ∧ (before [.read 0x0000C] waiting).inputs = .read 0x0000C :: [] ∧
    (before [.write 0x10000 1] waiting).busy = true ∧ (0x10000 : Addr).toNat % 4 = 0 ∧
    ¬ unmappedAddr (0x10000 : Addr).toNat ∧
    (before [.write 0x10000 1] waiting).inputs = .write 0x10000 1 :: [] := by
  have h : ¬ unmappedAddr 0x0000C := by
    have := Config.bufCap_ge
    simp only [unmappedAddr]; omega
  exact ⟨rfl, by decide, h, rfl, rfl, by decide, mapped_ends.2.2.2.2.2.2.1, rfl⟩

theorem witness_NarrowRegistersStoreTheirLowBits :
    withContext.busy = false ∧
    (before [.write 0x00010 0x00000120] withContext).inputs = .write 0x00010 0x00000120 :: [] ∧
    (before [.write 0x00014 0x00000110] withContext).inputs = .write 0x00014 0x00000110 :: [] ∧
    (before [.write 0x00018 0x00000100] withContext).inputs = .write 0x00018 0x00000100 :: [] ∧
    (before [.write 0x00024 0xFFFFFFFE] withContext).inputs = .write 0x00024 0xFFFFFFFE :: [] := by decide

theorem witness_WideAndReadOnlyTargets :
    withContext.busy = false ∧
    ((0x0001C : Addr).toNat = 0x0001C ∧ (before [.write 0x0001C 5] withContext).inputs = .write 0x0001C 5 :: []) ∧
    ((0x00020 : Addr).toNat = 0x00020 ∧ (before [.write 0x00020 5] withContext).inputs = .write 0x00020 5 :: []) ∧
    ((0x2002C : Addr).toNat % 4 = 0 ∧ 0x20000 ≤ (0x2002C : Addr).toNat ∧
      (0x2002C : Addr).toNat < 0x20000 + Config.bufCap) := by
  have := Config.bufCap_ge
  refine ⟨rfl, by decide, by decide, by decide, by decide, ?_⟩
  show 0x2002C < 0x20000 + Config.bufCap
  omega

/-- The last word of `IV`, of KEYBUF, and of IBUF at the smallest capacity. -/
theorem witness_BufferWordsAreLittleEndian :
    withContext.busy = false ∧ MemoriesWf withContext ∧
    (Space.iv ≠ .obuf ∧ 4 * 3 < Space.iv.size ∧ (0x0004C : Addr).toNat = Space.iv.base + 4 * 3) ∧
    (Space.keybuf ≠ .obuf ∧ 4 * 15 < Space.keybuf.size ∧ (0x000BC : Addr).toNat = Space.keybuf.base + 4 * 15) ∧
    (Space.ibuf ≠ .obuf ∧ 4 * 11 < Space.ibuf.size ∧ (0x1002C : Addr).toNat = Space.ibuf.base + 4 * 11) ∧
    (before [.write 0x0004C 0x64636261] withContext).inputs = .write 0x0004C 0x64636261 :: [] := by
  have := Config.bufCap_ge
  refine ⟨rfl, memories_withContext, by decide, by decide, ⟨by decide, ?_, by decide⟩, rfl⟩
  show 44 < Config.bufCap
  omega

theorem witness_AcknowledgeClearsDoneOnly :
    (before [.write 0x0000C 2] withContext).busy = false ∧
    (before [.write 0x0000C 2] withContext).inputs = .write 0x0000C 2 :: [] := by decide

theorem witness_AcceptOfAnyWord :
    (before [.write 0x00008 0xFFFFFFFF] withContext).busy = false ∧
    (before [.write 0x00008 0xFFFFFFFF] withContext).inputs = .write 0x00008 0xFFFFFFFF :: [] := by decide

theorem witness_IrqFollowsCompletionAndAcknowledgement :
    (∃ t, step (busyWith 0x00000008 []) = .next t ∧ (busyWith 0x00000008 []).busy = true ∧ t.busy = false ∧
      t.done = true) ∧
    (∃ t, step (before [.write 0x0000C 2] withContext) = .next t ∧ (2 : Word).toNat / 2 % 2 = 1) ∧
    (∃ t, step (before [.write 0x00008 6] withContext) = .next t) ∧
    (∃ t, step (before [.write 0x00024 1] withContext) = .next t) :=
  ⟨⟨_, rfl, rfl, rfl, rfl⟩, ⟨_, rfl, by decide⟩, ⟨_, rfl⟩, _, rfl⟩

/-- A key of one byte or of 64, one round or 32, and no context. -/
def keyed (len rounds : BitVec 8) (kb : Memory) : State := { State.reset with keyLen := len, rounds := rounds, keybuf := kb }

theorem inv_keyed (len rounds : BitVec 8) : (keyed len rounds [(0, 0x6B), (63, 1)]).Inv where
  notBusyAndDone := fun h => by cases h.1
  busyPhase := ⟨fun h => (by cases h), fun h => absurd rfl h⟩
  context := ⟨fun h => (by cases h), fun h => absurd h.1 (by decide : ¬ 1 ≤ 0)⟩
  noContext := ⟨fun _ => rfl, fun _ => rfl⟩
  unusedSlots := fun i _ _ => by
    simp only [State.slot, keyed, State.reset]
    rw [Vector.getElem?_replicate]
    split <;> rfl
  outputEnds := fun c h => by cases h
  outputFits := Nat.zero_le _
  idleWork := fun _ => ⟨rfl, rfl, rfl, rfl, rfl, rfl, rfl, rfl⟩
  busyClean := fun h => by cases h
  drawing := by rintro (h | h | h) <;> cases h
  failureNoOutput := fun _ => rfl
  memories := by
    constructor
    · intro sp; cases sp <;> (simp only [State.mem, keyed, State.reset]; decide)
    · intro sp; cases sp <;> simp [State.mem, keyed, State.reset, Space.size]

theorem witness_KeyInitCreatesTheContext :
    (let s := keyed 1 32 [(0, 0x6B), (63, 1)]
     s.Inv ∧ s.ctxValid = false ∧ 1 ≤ s.keyLen.toNat ∧ s.keyLen.toNat ≤ 64 ∧ 1 ≤ s.rounds.toNat ∧
       s.rounds.toNat ≤ 32) ∧
    (let s := keyed 64 1 [(0, 0x6B), (63, 1)]
     s.Inv ∧ s.ctxValid = false ∧ 1 ≤ s.keyLen.toNat ∧ s.keyLen.toNat ≤ 64 ∧ 1 ≤ s.rounds.toNat ∧
       s.rounds.toNat ≤ 32) :=
  ⟨⟨inv_keyed 1 32, by decide⟩, inv_keyed 64 1, by decide⟩

theorem witness_KeyInitFailures :
    withContext.ctxValid = true ∧
    ((keyed 0 16 []).ctxValid = false ∧ (keyed 0 16 []).keyLen.toNat = 0) ∧
    ((keyed 65 16 []).ctxValid = false ∧ 64 < (keyed 65 16 []).keyLen.toNat) ∧
    ((keyed 13 0 []).ctxValid = false ∧ (keyed 13 0 []).rounds.toNat = 0) ∧
    ((keyed 13 33 []).ctxValid = false ∧ 32 < (keyed 13 33 []).rounds.toNat) := by decide

/-- Two states whose key buffers differ behind the key. -/
theorem witness_KeyInitIsDeterministic :
    let s := keyed 1 2 [(0, 0x6B), (63, 1)]
    let s' := { keyed 1 2 [(0, 0x6B), (63, 1)] with inLen := 7 }
    s.Inv ∧ s'.Inv ∧ s.ctxValid = false ∧ s'.ctxValid = false ∧ s.keyLen = s'.keyLen ∧ s.rounds = s'.rounds ∧
      ∀ a, a < s.keyLen.toNat → s.byteAt .keybuf a = s'.byteAt .keybuf a :=
  have h := inv_keyed 1 2
  ⟨h, ⟨h.1, h.2, h.3, h.4, h.5, h.6, h.7, fun hb => have w := h.8 hb; ⟨w.1, w.2, w.3, w.4, w.5, w.6, w.7, w.8⟩,
    fun hb => (by cases hb), (by rintro (e | e | e) <;> cases e), h.11, memoriesWf_congr h.12 rfl rfl rfl rfl⟩,
    rfl, rfl, rfl, rfl, fun _ _ => rfl⟩

theorem witness_BlkEncWritesEncBlock : withContext.ctxValid = true ∧ withContext.obuf.wf := by decide

theorem witness_BlkDecWritesDecBlock : withContext.ctxValid = true ∧ withContext.obuf.wf := by decide

theorem witness_NoContextIsIllegalCommand : State.reset.ctxValid = false := rfl

theorem witness_BlockCommandsRoundTrip :
    ∃ t u, withContext.ctxValid = true ∧ withContext.obuf.wf ∧ exec .blkEnc withContext = .next t ∧
      KeepsContext withContext u ∧ u.obuf.wf ∧ ∀ a, a < 16 → u.byteAt .ibuf a = t.byteAt .obuf a :=
  ⟨_, { withContext with ibuf := State.obuf _, obuf := [] }, rfl, by decide, exec_blkEnc withContext,
    ⟨rfl, rfl, rfl⟩, Memory.wf_nil, fun _ _ => rfl⟩

theorem witness_BlockCommandsRoundTrip_decFirst :
    ∃ t u, withContext.ctxValid = true ∧ withContext.obuf.wf ∧ exec .blkDec withContext = .next t ∧
      KeepsContext withContext u ∧ u.obuf.wf ∧ ∀ a, a < 16 → u.byteAt .ibuf a = t.byteAt .obuf a :=
  ⟨_, { withContext with ibuf := State.obuf _, obuf := [] }, rfl, by decide, exec_blkDec withContext,
    ⟨rfl, rfl, rfl⟩, Memory.wf_nil, fun _ _ => rfl⟩

/-- The longest message that fits at the smallest capacity: 31 bytes. -/
def message31 : State := { withContext with inLen := 31 }

theorem fits_message31 : 16 * (message31.inLen.toNat / 16 + 2) ≤ Config.bufCap := Config.bufCap_ge

theorem witness_CbcEncWithSuppliedIv :
    message31.ctxValid = true ∧ 16 * (message31.inLen.toNat / 16 + 2) ≤ Config.bufCap ∧ message31.obuf.wf :=
  ⟨rfl, fits_message31, by decide⟩

theorem witness_CbcEncWithDrawnIv :
    let s (p : Phase) : State := { message31 with phase := p }
    ∀ p, (s p).ctxValid = true ∧ 16 * ((s p).inLen.toNat / 16 + 2) ≤ Config.bufCap ∧ (s p).obuf.wf ∧
      (s p).phase = p :=
  fun _ => ⟨rfl, fits_message31, memories_withContext.wf .obuf, rfl⟩

theorem witness_EntropyPortProtocol :
    ((before [.entropy true true 0] withContext).inputs = .entropy true true 0 :: [] ∧
      (before [.entropy true true 0] withContext).entReq = false) ∧
    ((before [.entropy true true 0] waiting).inputs = .entropy true true 0 :: [] ∧
      (before [.entropy true true 0] waiting).entReq = true) ∧
    ((before [.entropy false false 0] waiting).inputs = .entropy false false 0 :: [] ∧
      (before [.entropy false false 0] waiting).entReq = true) ∧
    ((before [.entropy true false 1] waiting).inputs = .entropy true false 1 :: [] ∧
      (before [.entropy true false 1] waiting).entReq = true) := by decide

theorem witness_GeneratedIvEndToEnd :
    let s := before [.write 0x00008 0x00000004, .engine, .entropy true false 5, .engine] withContext
    s.Inv ∧ s.busy = false ∧ s.ctxValid = true ∧ 16 * (s.inLen.toNat / 16 + 2) ≤ Config.bufCap ∧
      s.inputs = [.write 0x00008 0x00000004, .engine, .entropy true false 5, .engine] :=
  have h := inv_withContext
  ⟨⟨h.1, h.2, h.3, h.4, h.5, h.6, h.7, fun hb => have w := h.8 hb; ⟨w.1, w.2, w.3, w.4, w.5, w.6, w.7, w.8⟩,
    fun hb => (by cases hb), (by rintro (e | e | e) <;> cases e), h.11, memoriesWf_congr h.12 rfl rfl rfl rfl⟩,
    rfl, rfl, Nat.le_trans (by decide) Config.bufCap_ge, rfl⟩

/-- A message too long for every capacity. -/
theorem witness_CbcEncCapacity :
    let s := { withContext with inLen := 65520 }
    s.ctxValid = true ∧ Config.bufCap < 16 * (s.inLen.toNat / 16 + 2) :=
  ⟨rfl, Nat.lt_of_le_of_lt Config.bufCap_le (by decide)⟩

/-- An envelope of 32 bytes that decrypts to one pad byte of value 1 or of value 0 under every round
function: with one round the last byte recovered is byte 7 of the ciphertext block xor byte 15 of the IV. -/
def envelope32 (c7 : Byte) : State := { withContext with inLen := 32, ibuf := [(23, c7)] }

/-- Whether CBC_DEC's pure function accepts the input. -/
def accepts (s : State) : Bool :=
  match cbcDecrypt Config.F s.contextKeys (s.ibuf.readBytes 0 s.inLen.toNat) with
  | .ok _ => true
  | .error _ => false

theorem witness_CbcDecOutcomes :
    (let s := envelope32 1
     s.ctxValid = true ∧ 32 ≤ s.inLen.toNat ∧ s.inLen.toNat % 16 = 0 ∧ s.inLen.toNat ≤ Config.bufCap ∧
       s.obuf.wf ∧ ∃ p, cbcDecrypt Config.F s.contextKeys (s.ibuf.readBytes 0 s.inLen.toNat) = .ok p) ∧
    (let s := envelope32 0x11
     s.ctxValid = true ∧ 32 ≤ s.inLen.toNat ∧ s.inLen.toNat % 16 = 0 ∧ s.inLen.toNat ≤ Config.bufCap ∧
       s.obuf.wf ∧ ∃ e, cbcDecrypt Config.F s.contextKeys (s.ibuf.readBytes 0 s.inLen.toNat) = .error e) := by
  have hc : 32 ≤ Config.bufCap := Nat.le_trans (by decide) Config.bufCap_ge
  have h1 : accepts (envelope32 1) = true := by decide
  have h2 : accepts (envelope32 0x11) = false := by decide
  refine ⟨⟨rfl, by decide, by decide, hc, memories_withContext.wf .obuf, ?_⟩,
    ⟨rfl, by decide, by decide, hc, memories_withContext.wf .obuf, ?_⟩⟩
  · unfold accepts at h1
    split at h1
    · exact ⟨_, by assumption⟩
    · cases h1
  · unfold accepts at h2
    split at h2
    · cases h2
    · exact ⟨_, by assumption⟩

theorem witness_CbcDecLengthTests :
    ({ withContext with inLen := 31 } : State).inLen.toNat < 32 ∧
    (({ withContext with inLen := 33 } : State).inLen.toNat - 16) % 16 ≠ 0 ∧
    (let s := { withContext with inLen := 65552 }
     s.ctxValid = true ∧ 32 ≤ s.inLen.toNat ∧ (s.inLen.toNat - 16) % 16 = 0 ∧ Config.bufCap < s.inLen.toNat) :=
  ⟨by decide, by decide, rfl, by decide, by decide, Nat.lt_of_le_of_lt Config.bufCap_le (by decide)⟩

theorem witness_EncryptionChainsCiphertext : 0 < ([] : List Byte).length / 16 + 1 ∧ 1 < message.length / 16 + 1 := by
  decide

theorem witness_DecryptionChainsCiphertext :
    32 ≤ envelope7.length ∧ envelope7.length % 16 = 0 ∧ 16 * (0 + 1) < envelope7.length ∧
      16 * (1 + 1) < envelope7.length := by decide

/-- The envelope of V-CBC-7 with one bit of its IV changed. -/
def damaged : List Byte := 0xa1 :: envelope7.drop 1

theorem witness_DamageFlipsTheSameBitsOfTheNextBlock :
    32 ≤ envelope7.length ∧ envelope7.length % 16 = 0 ∧ damaged.length = envelope7.length ∧
      16 * (0 + 1) < envelope7.length ∧
      blockAt envelope7 (16 * (0 + 1)) = blockAt damaged (16 * (0 + 1)) := by decide

theorem witness_CbcCommandsRoundTrip :
    ∃ t u, message31.ctxValid = true ∧ message31.obuf.wf ∧
      16 * (message31.inLen.toNat / 16 + 2) ≤ Config.bufCap ∧ (true = false → message31.phase = .run) ∧
      exec (.cbcEnc true) message31 = .next t ∧ KeepsContext message31 u ∧ u.obuf.wf ∧ u.inLen = t.outLen ∧
      ∀ a, a < t.outLen.toNat → u.byteAt .ibuf a = t.byteAt .obuf a :=
  ⟨_, { message31 with ibuf := State.obuf _, obuf := [], inLen := State.outLen _ }, rfl, by decide,
    fits_message31, fun h => (by cases h), exec_cbcEnc_supplied message31, ⟨rfl, rfl, rfl⟩, Memory.wf_nil, rfl,
    fun _ _ => rfl⟩

theorem witness_CbcCommandsRoundTrip_drawn :
    let s : State := { message31 with phase := .run }
    ∃ t u, s.ctxValid = true ∧ s.obuf.wf ∧ 16 * (s.inLen.toNat / 16 + 2) ≤ Config.bufCap ∧
      (false = false → s.phase = .run) ∧ exec (.cbcEnc false) s = .next t ∧ KeepsContext s u ∧ u.obuf.wf ∧
      u.inLen = t.outLen ∧ ∀ a, a < t.outLen.toNat → u.byteAt .ibuf a = t.byteAt .obuf a := by
  intro s
  obtain ⟨t, h⟩ : ∃ t, exec (.cbcEnc false) s = .next t :=
    ⟨_, (exec_cbcEnc_drawn s).trans
      ((if_neg (by decide)).trans ((if_neg (Nat.not_lt.2 fits_message31)).trans (if_pos rfl)))⟩
  exact ⟨t, { message31 with ibuf := t.obuf, obuf := [], inLen := t.outLen }, rfl,
    memories_withContext.wf .obuf, fits_message31, fun _ => rfl, h, ⟨rfl, rfl, rfl⟩, Memory.wf_nil, rfl,
    fun _ _ => rfl⟩

theorem witness_PadShape : 1 ≤ 1 ∧ 1 ≤ 255 ∧ 1 ≤ 255 ∧ 255 ≤ 255 := by decide

theorem witness_UnpadAcceptsExactly :
    (let d : List Byte := [0x41, 0x41, 2, 2]
     d.length ≠ 0 ∧ d.length % 4 = 0 ∧ (d.getD (d.length - 1) 0).toNat = 2 ∧
       ∀ k, k < d.length → d.length - 2 ≤ k → (d.getD k 0).toNat = 2) ∧
    (let d : List Byte := [0x41, 0x41, 2]
     ¬ d.length % 4 = 0) := by decide

theorem witness_UnpadInvertsPad : 1 ≤ 255 ∧ 255 ≤ 255 ∧ unpad [0x41, 1] 1 = .ok [0x41] := by decide

/-- Accepted with a count of 1, accepted with a larger count, not accepted. -/
theorem witness_ChangedLastPadByte :
    (let x : List Byte := List.replicate 5 0x41
     (1 : Byte).toNat ≠ 8 - x.length % 8 ∧ (1 : Byte).toNat < 8 - x.length % 8) ∧
    (let x : List Byte := List.replicate 15 0x03
     (3 : Byte).toNat ≠ 16 - x.length % 16 ∧ 16 - x.length % 16 < (3 : Byte).toNat ∧
       16 - x.length % 16 = 1 ∧ ∀ k, k < x.length → x.length - 2 ≤ k → x.getD k 0 = 3) ∧
    (let x : List Byte := List.replicate 5 0x41
     (0 : Byte).toNat ≠ 8 - x.length % 8) := by decide

theorem witness_PadCommandWritesPad :
    withContext.bsize ≠ 0 ∧
    withContext.bsize.toNat * (withContext.inLen.toNat / withContext.bsize.toNat + 1) ≤ Config.bufCap ∧
    withContext.obuf.wf :=
  ⟨by decide, Nat.le_trans (by decide) Config.bufCap_ge, by decide⟩

theorem witness_UnpadCommandOutcomes :
    (let s := { withContext with bsize := 1, inLen := 1, ibuf := [(0, 1)] }
     s.bsize ≠ 0 ∧ s.inLen.toNat ≤ Config.bufCap ∧ s.obuf.wf ∧
       unpad (s.ibuf.readBytes 0 s.inLen.toNat) s.bsize.toNat = .ok []) ∧
    (let s := { withContext with bsize := 1, inLen := 1 }
     s.bsize ≠ 0 ∧ s.inLen.toNat ≤ Config.bufCap ∧ s.obuf.wf ∧
       unpad (s.ibuf.readBytes 0 s.inLen.toNat) s.bsize.toNat = .error .invalidPadding) :=
  ⟨⟨by decide, Nat.le_trans (by decide) Config.bufCap_ge, by decide, by decide⟩,
    by decide, Nat.le_trans (by decide) Config.bufCap_ge, by decide, by decide⟩

theorem witness_CodecCommandFailures :
    ({ withContext with bsize := 0 } : State).bsize = 0 ∧
    (let s := { withContext with inLen := 65536 }
     s.bsize ≠ 0 ∧ Config.bufCap < s.bsize.toNat * (s.inLen.toNat / s.bsize.toNat + 1)) ∧
    (let s := { withContext with inLen := 65537 }
     s.bsize ≠ 0 ∧ Config.bufCap < s.inLen.toNat) :=
  ⟨rfl, ⟨by decide, Nat.lt_of_le_of_lt Config.bufCap_le (by decide)⟩, by decide,
    Nat.lt_of_le_of_lt Config.bufCap_le (by decide)⟩

theorem witness_ZeroizeThenAcknowledgeIsReset :
    let xs : List Input := [.write 0x00008 0x00000009, .engine, .write 0x0000C 0x00000002]
    (before xs withContext).busy = false ∧ (before xs withContext).inputs = xs := by decide

end Sys2Proof.Tests
end

/-! The state and its invariant (10_state.md): what a command and a step can do, each said once, the parts of
the invariant, and the statements about the state settled from them. -/

namespace Sys2Proof.Machine

/-! ### The lengths of the outputs -/

/-- The pad brings a string to the next multiple of the block size (43_padding_codec.md R201). -/
theorem length_pad (d : List Byte) {bs : Nat} (h : 1 ≤ bs) : (pad d bs).length = paddedLength d.length bs := by
  have hd := Nat.div_add_mod d.length bs
  have hm := Nat.mod_lt d.length h
  simp only [pad, paddedLength, padCount_eq h, List.length_append, List.length_replicate, Nat.mul_add,
    Nat.mul_one]
  omega

/-- The length of an envelope (42_cbc_mode.md R171). -/
theorem length_cbcEncrypt (F : B8 → B16 → B8) (ks : List B16) (p : List Byte) (iv : B16) :
    (cbcEncrypt F ks p iv).length = envelopeLength p.length := by
  simp only [cbcEncrypt, List.length_append, Vector.length_toList, length_joinBlocks, length_cbcEncBlocks,
    length_blocks, length_pad p (show 1 ≤ Config.cbcBs by decide), paddedLength, envelopeLength, Config.cbcBs]
  omega

theorem length_cbcRecover_le (F : B8 → B16 → B8) (ks : List B16) (e : List Byte) :
    (cbcRecover F ks e).length ≤ e.length := by
  simp only [cbcRecover, length_joinBlocks, length_cbcDecBlocks, length_blocks, List.length_drop]
  omega

/-- `Unpad` never lengthens a string. -/
theorem length_le_of_unpad {d v : List Byte} {bs : Nat} (h : unpad d bs = .ok v) : v.length ≤ d.length := by
  unfold unpad at h
  split at h
  · cases h
  · split at h
    · cases h
    · cases h
      simp only [stripPad, List.length_take]
      omega

/-! ### How a command ends -/

/-- What a command leaves behind: it failed, it wrote an output that fits, it waits for its IV, or it is one
of the three commands without an output. -/
inductive CommandEnds (s : State) : Instr → State → Prop where
  /-- A failure (60_exceptions.md R256). -/
  | failed {i : Instr} (e : Failure) (hi : i ≠ .keyInit) : CommandEnds s i (finish (raise e s))
  /-- A data command with its output (10_state.md R62). -/
  | wrote {i : Instr} (v : List Byte) (hv : v.length ≤ Config.bufCap) :
      CommandEnds s i (finish (.ok, s.output v))
  /-- CBC_ENC before the answer of the entropy source (42_cbc_mode.md R183). -/
  | waits (hc : s.ctxValid = true) (hl : envelopeLength s.inLen.toNat ≤ Config.bufCap) (hr : s.phase ≠ .run) :
      CommandEnds s (.cbcEnc false) { s with phase := .waitEntropy }
  /-- KEY_INIT that failed (40_key_schedule.md R132, R133). -/
  | keyRefused (e : Failure) : CommandEnds s .keyInit (finish (dropKey (raise e s)))
  /-- KEY_INIT that created the context (40_key_schedule.md R134). -/
  | contextMade (hc : s.ctxValid = false) (hk : keyOperandsBad s.keyLen.toNat s.rounds.toNat = false) :
      CommandEnds s .keyInit (finish (dropKey (.ok, createContext s)))
  /-- WIPE (44_housekeeping.md R222). -/
  | wiped : CommandEnds s .wipe (finish (.ok, wipeBuffers s))
  /-- ZEROIZE (44_housekeeping.md R224). -/
  | zeroized : CommandEnds s .zeroize (finish (.ok, dropContext (wipeBuffers s)))

theorem keyInit_ends (s : State) : CommandEnds s .keyInit (finish (dropKey (keyInitResult s))) := by
  unfold keyInitResult
  split
  · exact .keyRefused _
  · rename_i hc
    split
    · exact .keyRefused _
    · rename_i hk
      exact .contextMade (by simpa using hc) (by simpa using hk)

/-- A block command fails without a context, and else writes one block (41_block_primitive.md R160, R162). -/
theorem block_ends {s : State} {i : Instr} (hi : i ≠ .keyInit) (b : B16) :
    CommandEnds s i
      (finish (if !s.ctxValid then raise .illegalCommand s else (.ok, s.output b.toList))) := by
  have := Config.bufCap_ge
  split
  · exact .failed _ hi
  · exact .wrote _ (by rw [Vector.length_toList]; omega)

/-- The envelope of an input that passed the test on its length fits (42_cbc_mode.md R184). -/
theorem cbcEncrypt_fits {s : State} (h : ¬ Config.bufCap < envelopeLength s.inLen.toNat) (iv : B16) :
    (cbcEncrypt Config.F s.contextKeys s.inputBytes iv).length ≤ Config.bufCap := by
  rw [length_cbcEncrypt, length_inputBytes]
  omega

theorem cbcEncSupplied_ends {s t : State} (h : exec (.cbcEnc true) s = .next t) :
    CommandEnds s (.cbcEnc true) t := by
  rw [exec_cbcEnc_supplied] at h
  cases h
  split
  · exact .failed _ (by simp)
  · split
    · exact .failed _ (by simp)
    · rename_i hl
      exact .wrote _ (cbcEncrypt_fits hl _)

theorem cbcEncDrawn_ends {s t : State} (h : exec (.cbcEnc false) s = .next t) :
    CommandEnds s (.cbcEnc false) t := by
  rw [exec_cbcEnc_drawn] at h
  split at h
  · cases h; exact .failed _ (by simp)
  · rename_i hc
    split at h
    · cases h; exact .failed _ (by simp)
    · rename_i hl
      split at h
      · cases h; exact .wrote _ (cbcEncrypt_fits hl _)
      · rename_i hr
        split at h
        · cases h; exact .failed _ (by simp)
        · cases h; exact .waits (by simpa using hc) (by omega) hr

/-- A command that ends as `Unpad` of its input says writes a string that fits when its input does. -/
theorem unpad_ends {s : State} {i : Instr} {d : List Byte} {bs : Nat} (hi : i ≠ .keyInit)
    (hd : d.length ≤ Config.bufCap) :
    CommandEnds s i
      (match unpad d bs with
       | .error e => finish (raise e s)
       | .ok v => finish (.ok, s.output v)) := by
  cases hu : unpad d bs with
  | error e => exact .failed e hi
  | ok v => exact .wrote v (Nat.le_trans (length_le_of_unpad hu) hd)

theorem cbcDec_ends {s t : State} (h : exec .cbcDec s = .next t) : CommandEnds s .cbcDec t := by
  rw [exec_cbcDec] at h
  cases h
  split
  · exact .failed _ (by simp)
  · split
    · exact .failed _ (by simp)
    · split
      · exact .failed _ (by simp)
      · rename_i hl
        have hr := length_cbcRecover_le Config.F s.contextKeys s.inputBytes
        rw [length_inputBytes] at hr
        exact unpad_ends (by simp) (by omega)

theorem pad_ends {s t : State} (h : exec .pad s = .next t) : CommandEnds s .pad t := by
  rw [exec_pad] at h
  cases h
  split
  · exact .failed _ (by simp)
  · rename_i hb
    have hbs : 1 ≤ s.bsize.toNat := Nat.pos_of_ne_zero fun e => hb (BitVec.eq_of_toNat_eq e)
    split
    · exact .failed _ (by simp)
    · rename_i hl
      exact .wrote _ (by rw [length_pad _ hbs, length_inputBytes]; omega)

theorem unpadCommand_ends {s t : State} (h : exec .unpad s = .next t) : CommandEnds s .unpad t := by
  rw [exec_unpad] at h
  cases h
  split
  · exact .failed _ (by simp)
  · split
    · exact .failed _ (by simp)
    · exact unpad_ends (by simp) (by rw [length_inputBytes]; omega)

/-- Every command ends in one of these ways. -/
theorem exec_ends {s t : State} {i : Instr} (h : exec i s = .next t) : CommandEnds s i t := by
  cases i with
  | keyInit => cases h; exact keyInit_ends s
  | blkEnc =>
    rw [exec_blkEnc] at h
    cases h
    exact block_ends (by simp) _
  | blkDec =>
    rw [exec_blkDec] at h
    cases h
    exact block_ends (by simp) _
  | cbcEnc ivsrc =>
    cases ivsrc with
    | true => exact cbcEncSupplied_ends h
    | false => exact cbcEncDrawn_ends h
  | cbcDec => exact cbcDec_ends h
  | pad => exact pad_ends h
  | unpad => exact unpadCommand_ends h
  | wipe => cases h; exact .wiped
  | zeroize => cases h; exact .zeroized

/-! ### What a step can do -/

/-- The engine's turn: nothing when idle, an illegal word, or a command. -/
theorem engineTurn_cases {s t : State} (h : engineTurn s = .next t) :
    (s.busy = false ∧ t = s) ∨
      (s.busy = true ∧ t = finish (raise .illegalCommand s)) ∨
      ∃ i, s.busy = true ∧ decode s.cw = .ok i ∧ CommandEnds s i t := by
  cases hb : s.busy with
  | false =>
    rw [engineTurn_idle hb] at h
    cases h
    exact .inl ⟨rfl, rfl⟩
  | true =>
    cases hd : decode s.cw with
    | error e =>
      rw [engineTurn_illegal hb hd] at h
      cases h
      exact .inr (.inl ⟨rfl, rfl⟩)
    | ok i =>
      rw [engineTurn_command hb hd] at h
      exact .inr (.inr ⟨i, rfl, rfl, exec_ends h⟩)

/-- A step takes one input, or it is the engine's turn (20_memory.md R88). -/
theorem step_cases {s t : State} (h : step s = .next t) :
    (∃ addr rest, s.inputs = .read addr :: rest ∧ t = hostRead addr { s with inputs := rest }) ∨
      (∃ addr w rest, s.inputs = .write addr w :: rest ∧ t = hostWrite addr w { s with inputs := rest }) ∨
      (∃ valid fail data rest, s.inputs = .entropy valid fail data :: rest ∧
        t = entropyEdge valid fail data { s.noTransfer with inputs := rest }) ∨
      (∃ rest, s.inputs = .reset :: rest ∧ t = { State.reset with inputs := rest }) ∨
      ∃ rest, engineTurn { s.noTransfer with inputs := rest } = .next t := by
  cases hi : s.inputs with
  | nil =>
    rw [step_turn (.inl hi), hi] at h
    exact .inr (.inr (.inr (.inr ⟨_, h⟩)))
  | cons x rest =>
    rw [step_of_cons hi] at h
    cases x with
    | read addr => cases h; exact .inl ⟨addr, rest, rfl, rfl⟩
    | write addr w => cases h; exact .inr (.inl ⟨addr, w, rest, rfl, rfl⟩)
    | entropy valid fail data => cases h; exact .inr (.inr (.inl ⟨valid, fail, data, rest, rfl, rfl⟩))
    | reset => cases h; exact .inr (.inr (.inr (.inl ⟨rest, rfl, rfl⟩)))
    | engine => exact .inr (.inr (.inr (.inr ⟨rest, h⟩)))

/-- A host write changes the response ports only, or it is a write to a target while `BUSY = 0`
(20_memory.md R75, R86). -/
theorem hostWrite_cases (addr : Addr) (w : Word) (s : State) :
    (∃ e, hostWrite addr w s = { s with hRdata := 0, hErr := e }) ∨
      ∃ tg, s.busy = false ∧ targetAt addr = some tg ∧
        hostWrite addr w s = { writeTarget s w tg with hRdata := 0, hErr := false } := by
  by_cases hb : s.busy = true
  · exact .inl (hostWrite_busy hb addr w)
  · have hb : s.busy = false := by simpa using hb
    cases ht : targetAt addr with
    | none => exact .inl ⟨true, by simp only [hostWrite, busWrite_refused w ht]⟩
    | some tg => exact .inr ⟨tg, hb, rfl, by simp only [hostWrite, busWrite_idle w ht hb]⟩

/-- A clock edge at the entropy port does nothing, or a request is answered with `Unavailable` or with 16
bytes (60_exceptions.md R268). -/
theorem entropyEdge_cases (valid fail : Bool) (data : BitVec 128) (s : State) :
    entropyEdge valid fail data s = s ∨
      (s.phase = .waitEntropy ∧ (entropyEdge valid fail data s = { s with phase := .finish } ∨
        ∃ v, entropyEdge valid fail data s = { s with phase := .run, chain := v })) := by
  unfold entropyEdge
  split
  · rename_i hr
    have hp : s.phase = .waitEntropy := by simpa [State.entReq] using hr
    split
    · exact .inr ⟨hp, .inl rfl⟩
    · split
      · exact .inr ⟨hp, .inr ⟨_, rfl⟩⟩
      · exact .inl rfl
  · exact .inl rfl

/-- The acknowledgement is the write of a 1 to bit 1 (10_state.md R26). -/
theorem writeReg_status (s : State) (w : Word) :
    writeReg s w .status = { s with done := if w.getLsbD 1 then false else s.done } := by
  show (if w.getLsbD 1 then acknowledge s else s) = _
  cases w.getLsbD 1 <;> rfl

/-- A host write to a mapped word while `BUSY = 0`. -/
theorem step_write_idle {s : State} {addr : Addr} {w : Word} {rest : List Input} {tg : Target}
    (hb : s.busy = false) (hi : s.inputs = .write addr w :: rest) (ht : targetAt addr = some tg) :
    step s = .next { writeTarget { s with inputs := rest } w tg with hRdata := 0, hErr := false } := by
  have hw : busWrite { s with inputs := rest } addr w = (writeTarget { s with inputs := rest } w tg, false) :=
    busWrite_idle w ht hb
  rw [step_of_cons hi]
  simp only [takeInput, hostWrite, hw]

/-! ### The parts of the invariant -/

/-- The clauses of the invariant about the context (10_state.md R46, R61 (b) and (c)). -/
structure ContextInv (s : State) : Prop where
  context : s.ctxValid = true ↔ 1 ≤ s.ctxRounds.toNat ∧ s.ctxRounds.toNat ≤ 32
  noContext : s.ctxValid = false ↔ s.ctxRounds = 0
  unusedSlots : ∀ i, s.ctxRounds.toNat < i → i ≤ 32 → s.slot i = B16.zero

/-- The clauses of the invariant about the output (10_state.md R36, R42, R61 (d) and (g)). -/
structure OutputInv (s : State) : Prop where
  outputEnds : ∀ c ∈ s.obuf, c.1 < s.outLen.toNat
  outputFits : s.outLen.toNat ≤ Config.bufCap
  failureNoOutput : s.err ≠ .ok → s.outLen = 0

theorem State.Inv.contextInv {s : State} (h : s.Inv) : ContextInv s :=
  ⟨h.context, h.noContext, h.unusedSlots⟩

/-- The invariant of an idle state. -/
theorem inv_of_idle {s : State} (hb : s.busy = false) (hw : WorkZero s) (hc : ContextInv s)
    (ho : OutputInv s) (hm : MemoriesWf s) : s.Inv where
  notBusyAndDone := by simp [hb]
  busyPhase := by simp [hb, hw.phase]
  context := hc.context
  noContext := hc.noContext
  unusedSlots := hc.unusedSlots
  outputEnds := ho.outputEnds
  outputFits := ho.outputFits
  idleWork := fun _ => hw
  busyClean := by simp [hb]
  drawing := by simp [hw.phase]
  failureNoOutput := ho.failureNoOutput
  memories := hm

/-- The invariant of a state with a command in progress: it has no output yet. -/
theorem inv_of_busy {s : State} (hb : s.busy = true) (hd : s.done = false) (hp : s.phase ≠ .idle)
    (hc : ContextInv s) (hl : BusyClean s)
    (hv : s.phase = .waitEntropy ∨ s.phase = .run ∨ s.phase = .finish → DrawsIv s) (hm : MemoriesWf s) :
    s.Inv where
  notBusyAndDone := by simp [hd]
  busyPhase := by simp [hb, hp]
  context := hc.context
  noContext := hc.noContext
  unusedSlots := hc.unusedSlots
  outputEnds := by simp [hl.obuf]
  outputFits := by simp [hl.outLen]
  idleWork := by simp [hb]
  busyClean := fun _ => hl
  drawing := hv
  failureNoOutput := fun _ => hl.outLen
  memories := hm

theorem State.Inv.done_of_busy {s : State} (h : s.Inv) (hb : s.busy = true) : s.done = false := by
  simpa [hb] using h.notBusyAndDone

theorem KeepsContext.slot {s t : State} (h : KeepsContext s t) (i : Nat) : t.slot i = s.slot i := by
  simp only [State.slot, h.rk]

theorem ContextInv.of_keeps {s t : State} (h : ContextInv s) (k : KeepsContext s t) : ContextInv t := by
  refine ⟨?_, ?_, fun i h1 h2 => ?_⟩
  · rw [k.ctxValid, k.ctxRounds]; exact h.context
  · rw [k.ctxValid, k.ctxRounds]; exact h.noContext
  · rw [k.ctxRounds] at h1; rw [k.slot]; exact h.unusedSlots i h1 h2

/-- The response ports and the inputs to come are no part of the invariant. -/
theorem State.Inv.ports {s : State} (h : s.Inv) (d : Word) (e : Bool) (xs : List Input) :
    State.Inv { s with hRdata := d, hErr := e, inputs := xs } where
  notBusyAndDone := h.notBusyAndDone
  busyPhase := h.busyPhase
  context := h.context
  noContext := h.noContext
  unusedSlots := h.unusedSlots
  outputEnds := h.outputEnds
  outputFits := h.outputFits
  idleWork := fun hb => by
    obtain ⟨cw, l, r, chain, blkIdx, rndIdx, padAcc, phase⟩ := h.idleWork hb
    exact ⟨cw, l, r, chain, blkIdx, rndIdx, padAcc, phase⟩
  busyClean := fun hb => by
    obtain ⟨err, outLen, obuf, l, r, blkIdx, rndIdx, padAcc, chain⟩ := h.busyClean hb
    exact ⟨err, outLen, obuf, l, r, blkIdx, rndIdx, padAcc, chain⟩
  drawing := fun hp => by
    obtain ⟨command, context, capacity⟩ := h.drawing hp
    exact ⟨command, context, capacity⟩
  failureNoOutput := h.failureNoOutput
  memories := memoriesWf_congr h.memories rfl rfl rfl rfl

/-! ### Reset -/

/-- Every slot of a store of zero blocks reads `0^16`. -/
theorem slot_of_rk_zero {s : State} (h : s.rk = Vector.replicate 32 B16.zero) (i : Nat) :
    s.slot i = B16.zero := by
  simp only [State.slot, h, Vector.getElem?_replicate]
  split <;> rfl

/-- No context, an empty store: the clauses about the context hold. -/
theorem contextInv_of_none {s : State} (hv : s.ctxValid = false) (hr : s.ctxRounds = 0)
    (hk : s.rk = Vector.replicate 32 B16.zero) : ContextInv s where
  context := by simp [hv, hr]
  noContext := by simp [hv, hr]
  unusedSlots := fun i _ _ => slot_of_rk_zero hk i

theorem outputInv_of_empty {s : State} (hn : s.outLen = 0) (ho : s.obuf = []) : OutputInv s where
  outputEnds := by simp [ho]
  outputFits := by simp [hn]
  failureNoOutput := fun _ => hn

theorem memoriesWf_of_empty {s : State} (h1 : s.iv = []) (h2 : s.keybuf = []) (h3 : s.ibuf = [])
    (h4 : s.obuf = []) : MemoriesWf s := by
  have e : ∀ sp, s.mem sp = [] := fun sp => by cases sp <;> assumption
  exact ⟨fun sp => by rw [e]; exact Memory.wf_nil, fun sp => by simp [e]⟩

theorem inv_reset : State.reset.Inv :=
  inv_of_idle rfl ⟨rfl, rfl, rfl, rfl, rfl, rfl, rfl, rfl⟩ (contextInv_of_none rfl rfl rfl)
    (outputInv_of_empty rfl rfl) (memoriesWf_of_empty rfl rfl rfl rfl)

/-! ### Host writes -/

/-- Accept starts a command without output; the work registers were empty (30_encoding.md R110). -/
theorem inv_accept {s : State} (h : s.Inv) (hb : s.busy = false) (w : Word) : (accept w s).Inv := by
  obtain ⟨-, l, r, chain, blkIdx, rndIdx, padAcc, -⟩ := h.idleWork hb
  refine inv_of_busy rfl rfl (by simp) (h.contextInv.of_keeps ⟨rfl, rfl, rfl⟩)
    ⟨rfl, rfl, rfl, l, r, blkIdx, rndIdx, padAcc, fun _ => chain⟩ (by simp) ?_
  exact memoriesWf_congr (memoriesWf_setMem h.memories .obuf Memory.wf_nil (by simp)) rfl rfl rfl rfl

/-- While idle the acknowledgement, the configuration and the operands are no part of the invariant, but for
the canonical form of the memories. -/
theorem State.Inv.operands {s : State} (h : s.Inv) (hb : s.busy = false) {done irqEn : Bool}
    {rounds keyLen bsize : BitVec 8} {inLen : Word} {iv keybuf ibuf : Memory}
    (hm : MemoriesWf { s with iv := iv, keybuf := keybuf, ibuf := ibuf }) :
    State.Inv { s with done := done, irqEn := irqEn, rounds := rounds, keyLen := keyLen, bsize := bsize,
                       inLen := inLen, iv := iv, keybuf := keybuf, ibuf := ibuf } := by
  obtain ⟨cw, l, r, chain, blkIdx, rndIdx, padAcc, phase⟩ := h.idleWork hb
  exact inv_of_idle hb ⟨cw, l, r, chain, blkIdx, rndIdx, padAcc, phase⟩
    (h.contextInv.of_keeps ⟨rfl, rfl, rfl⟩) ⟨h.outputEnds, h.outputFits, h.failureNoOutput⟩
    (memoriesWf_congr hm rfl rfl rfl rfl)

theorem inv_writeReg {s : State} (h : s.Inv) (hb : s.busy = false) (w : Word) (r : Reg) :
    (writeReg s w r).Inv := by
  cases r with
  | id => exact h
  | cap => exact h
  | outLen => exact h
  | cmd => exact inv_accept h hb w
  | status =>
    rw [writeReg_status]
    exact h.operands hb h.memories
  | rounds => exact h.operands hb h.memories
  | keyLen => exact h.operands hb h.memories
  | bsize => exact h.operands hb h.memories
  | inLen => exact h.operands hb h.memories
  | irqEn => exact h.operands hb h.memories

/-- Four bytes stored inside a space keep the memories well-formed. -/
theorem memoriesWf_memWrite {s : State} (h : MemoriesWf s) {sp : Space} {off : Nat} {v : List Byte}
    (hv : off + v.length ≤ sp.size) : MemoriesWf (s.memWrite sp off v) :=
  memoriesWf_setMem h sp (Memory.writeBytes_wf (h.wf sp) off v) (Memory.writeBytes_lt (h.bound sp) off v hv)

theorem inv_writeTarget {s : State} (h : s.Inv) (hb : s.busy = false) (w : Word) {addr : Addr} {tg : Target}
    (ht : targetAt addr = some tg) : (writeTarget s w tg).Inv := by
  cases tg with
  | reg r => exact inv_writeReg h hb w r
  | word sp off =>
    obtain ⟨hoff, -, -⟩ := targetAt_word ht
    have hm : MemoriesWf (s.memWrite sp off (lanesOfWord w)) := memoriesWf_memWrite h.memories hoff
    cases sp with
    | obuf => exact h
    | iv => exact h.operands hb hm
    | keybuf => exact h.operands hb hm
    | ibuf => exact h.operands hb hm

theorem inv_hostWrite {s : State} (h : s.Inv) (addr : Addr) (w : Word) : (hostWrite addr w s).Inv := by
  obtain ⟨e, he⟩ | ⟨tg, hb, ht, he⟩ := hostWrite_cases addr w s
  · rw [he]
    exact h.ports 0 e s.inputs
  · rw [he]
    exact (inv_writeTarget h hb w ht).ports 0 false _

/-! ### The entropy port -/

/-- While the command waits, or has its answer, the sequencer and `CHAIN` may take every value that belongs
to that answer (42_cbc_mode.md R183). -/
theorem inv_answer {s : State} (h : s.Inv) (hb : s.busy = true) (hv : DrawsIv s) {p : Phase} {c : B16}
    (hp : p ≠ .idle) (hc : p ≠ .run → c = B16.zero) : State.Inv { s with phase := p, chain := c } := by
  obtain ⟨err, outLen, obuf, l, r, blkIdx, rndIdx, padAcc, -⟩ := h.busyClean hb
  obtain ⟨command, context, capacity⟩ := hv
  exact inv_of_busy hb (h.done_of_busy hb) hp (h.contextInv.of_keeps ⟨rfl, rfl, rfl⟩)
    ⟨err, outLen, obuf, l, r, blkIdx, rndIdx, padAcc, hc⟩ (fun _ => ⟨command, context, capacity⟩)
    (memoriesWf_congr h.memories rfl rfl rfl rfl)

theorem inv_entropyEdge {s : State} (h : s.Inv) (valid fail : Bool) (data : BitVec 128) :
    (entropyEdge valid fail data s).Inv := by
  obtain he | ⟨hp, he⟩ := entropyEdge_cases valid fail data s
  · rw [he]
    exact h
  · have hb : s.busy = true := h.busyPhase.2 (by simp [hp])
    have hz : s.chain = B16.zero := (h.busyClean hb).chain (by simp [hp])
    obtain he | ⟨v, he⟩ := he
    · rw [he]
      exact inv_answer h hb (h.drawing (.inl hp)) (by simp) fun _ => hz
    · rw [he]
      exact inv_answer h hb (h.drawing (.inl hp)) (by simp) fun hr => absurd rfl hr

/-! ### Complete -/

/-- A failure leaves no output, and a context as before. -/
theorem inv_finish_fail {s : State} (hc : ContextInv s) (hm : MemoriesWf s) (e : Failure) :
    (finish (.fail e, s)).Inv :=
  inv_of_idle rfl (workZero_finish _) (hc.of_keeps (keepsContext_finish (.fail e, s)))
    (outputInv_of_empty rfl rfl)
    (memoriesWf_congr (memoriesWf_setMem hm .obuf Memory.wf_nil (by simp)) rfl rfl rfl rfl)

theorem inv_finish_ok {s : State} (hc : ContextInv s) (hm : MemoriesWf s)
    (he : ∀ c ∈ s.obuf, c.1 < s.outLen.toNat) (hf : s.outLen.toNat ≤ Config.bufCap) :
    (finish (.ok, s)).Inv :=
  inv_of_idle rfl (workZero_finish _) (hc.of_keeps (keepsContext_finish (.ok, s)))
    ⟨he, hf, fun hn => absurd rfl hn⟩ (memoriesWf_congr hm rfl rfl rfl rfl)

/-- A result without output: OBUF is empty since accept. -/
theorem inv_finish_ok_of_empty {s : State} (hc : ContextInv s) (hm : MemoriesWf s) (hn : s.outLen = 0)
    (ho : s.obuf = []) : (finish (.ok, s)).Inv :=
  have hi := outputInv_of_empty hn ho
  inv_finish_ok hc hm hi.outputEnds hi.outputFits

/-- An output that fits ends where `OUT_LEN` says, OBUF being empty since accept (10_state.md R42). -/
theorem inv_finish_output {s : State} (hc : ContextInv s) (hm : MemoriesWf s) (ho : s.obuf = [])
    {v : List Byte} (hv : v.length ≤ Config.bufCap) : (finish (.ok, s.output v)).Inv := by
  have hcap := Config.bufCap_le
  have hlen : (s.output v).outLen.toNat = v.length := by
    rw [output_outLen, BitVec.toNat_ofNat]
    exact Nat.mod_eq_of_lt (by omega)
  refine inv_finish_ok (hc.of_keeps ⟨rfl, rfl, rfl⟩) ?_ ?_ (by omega)
  · have hw : MemoriesWf (s.memWrite .obuf 0 v) := memoriesWf_memWrite hm (by simpa [Space.size] using hv)
    exact memoriesWf_congr hw rfl rfl rfl rfl
  · rw [hlen, output_obuf, ho]
    exact Memory.writeBytes_lt (by simp) 0 v (by omega)

/-! ### The context KEY_INIT creates -/

/-- The operands KEY_INIT accepts (40_key_schedule.md R133). -/
theorem keyOperandsBad_eq_false {k r : Nat} :
    keyOperandsBad k r = false ↔ (1 ≤ k ∧ k ≤ 64) ∧ 1 ≤ r ∧ r ≤ 32 := by
  simp only [keyOperandsBad, Bool.or_eq_false_iff, beq_eq_false_iff_ne, decide_eq_false_iff_not,
    Config.keyMax, Config.maxRounds]
  omega

/-- `CTX_ROUNDS` is the number in `ROUNDS` (40_key_schedule.md R134). -/
theorem toNat_createContext_ctxRounds {s : State} (h : s.rounds.toNat ≤ 32) :
    (createContext s).ctxRounds.toNat = s.rounds.toNat := by
  rw [createContext_ctxRounds, BitVec.toNat_setWidth]
  exact Nat.mod_eq_of_lt (by omega)

/-- The slots above the round count stay as they are (40_key_schedule.md R131). -/
theorem slot_createContext_above {s : State} {i : Nat} (h1 : s.rounds.toNat < i) (h2 : i ≤ 32) :
    (createContext s).slot i = s.slot i := by
  simp only [State.slot, createContext_rk, storeKeys]
  rw [Vector.getElem?_eq_getElem (by omega), Vector.getElem?_eq_getElem (by omega), Vector.getElem_ofFn,
    dif_neg (show ¬ i - 1 < s.rounds.toNat by omega)]

theorem contextInv_createContext {s : State} (h : ContextInv s) (hv : s.ctxValid = false)
    (hk : keyOperandsBad s.keyLen.toNat s.rounds.toNat = false) : ContextInv (createContext s) := by
  obtain ⟨-, hr1, hr2⟩ := keyOperandsBad_eq_false.1 hk
  have hr := toNat_createContext_ctxRounds hr2
  have h0 : s.ctxRounds = 0 := h.noContext.1 hv
  refine ⟨⟨fun _ => ⟨by omega, by omega⟩, fun _ => rfl⟩, ⟨fun e => (by cases e), fun e => ?_⟩, fun i h1 h2 => ?_⟩
  · rw [e] at hr
    simp at hr
    omega
  · rw [hr] at h1
    rw [slot_createContext_above h1 h2]
    exact h.unusedSlots i (by rw [h0]; simp; omega) h2

/-! ### The engine's turn -/

/-- Giving up the key keeps the memories well-formed. -/
theorem memoriesWf_dropKey {p : Result × State} (h : MemoriesWf p.2) : MemoriesWf (dropKey p).2 :=
  memoriesWf_congr (memoriesWf_setMem h .keybuf Memory.wf_nil (by simp)) rfl rfl rfl rfl

/-- However a command in progress ends, the invariant holds. -/
theorem inv_of_commandEnds {s t : State} {i : Instr} (h : s.Inv) (hb : s.busy = true)
    (hd : decode s.cw = .ok i) (he : CommandEnds s i t) : t.Inv := by
  have hl := h.busyClean hb
  cases he with
  | failed e _ => exact inv_finish_fail h.contextInv h.memories e
  | wrote v hv => exact inv_finish_output h.contextInv h.memories hl.obuf hv
  | waits hc hn hr => exact inv_answer h hb ⟨hd, hc, hn⟩ (by simp) fun _ => hl.chain hr
  | keyRefused e =>
    exact inv_finish_fail (s := (dropKey (raise e s)).2) (h.contextInv.of_keeps ⟨rfl, rfl, rfl⟩)
      (memoriesWf_dropKey (p := raise e s) h.memories) e
  | contextMade hc hk =>
    have hcc := contextInv_createContext h.contextInv hc hk
    have hm : MemoriesWf (createContext s) := memoriesWf_congr h.memories rfl rfl rfl rfl
    exact inv_finish_ok_of_empty (hcc.of_keeps ⟨rfl, rfl, rfl⟩)
      (memoriesWf_dropKey (p := (.ok, createContext s)) hm) hl.outLen hl.obuf
  | wiped =>
    exact inv_finish_ok_of_empty (h.contextInv.of_keeps ⟨rfl, rfl, rfl⟩)
      (memoriesWf_of_empty rfl rfl rfl rfl) rfl rfl
  | zeroized =>
    exact inv_finish_ok_of_empty (contextInv_of_none rfl rfl rfl) (memoriesWf_of_empty rfl rfl rfl rfl) rfl rfl

theorem inv_engineTurn {s t : State} (h : s.Inv) (ht : engineTurn s = .next t) : t.Inv := by
  obtain ⟨-, rfl⟩ | ⟨-, rfl⟩ | ⟨i, hb, hd, he⟩ := engineTurn_cases ht
  · exact h
  · exact inv_finish_fail h.contextInv h.memories .illegalCommand
  · exact inv_of_commandEnds h hb hd he

/-! ### The invariant and the context along a step -/

/-- Settles O8, input by input. -/
theorem invKeptByEveryStep : Obligations.InvKeptByEveryStep := by
  intro s t h hs
  obtain ⟨addr, rest, -, rfl⟩ | ⟨addr, w, rest, -, rfl⟩ | ⟨valid, fail, data, rest, -, rfl⟩ |
    ⟨rest, -, rfl⟩ | ⟨rest, ht⟩ := step_cases hs
  · exact h.ports _ _ rest
  · exact inv_hostWrite (h.ports s.hRdata s.hErr rest) addr w
  · exact inv_entropyEdge (h.ports 0 false rest) valid fail data
  · exact inv_reset.ports 0 false rest
  · exact inv_engineTurn (h.ports 0 false rest) ht

/-- Settles O9. -/
theorem invGivesTheGlobalInvariants : Obligations.InvGivesTheGlobalInvariants := by
  intro s h
  refine ⟨h.notBusyAndDone, h.context, h.noContext, h.unusedSlots, fun _ k hk => ?_, h.outputFits,
    h.idleWork, ?_, fun hc => h.failureNoOutput fun he => ?_, rfl⟩
  · exact Memory.read_eq_zero fun c hc => Nat.ne_of_lt (Nat.lt_of_lt_of_le (h.outputEnds c hc) hk)
  · cases s.err with
    | ok => decide
    | fail e => cases e <;> decide
  · rw [he] at hc
    exact hc rfl

theorem KeepsContext.of_writeTarget (s : State) (w : Word) (tg : Target) :
    KeepsContext s (writeTarget s w tg) := by
  cases tg with
  | word sp off => cases sp <;> exact ⟨rfl, rfl, rfl⟩
  | reg r =>
    cases r with
    | status =>
      simp only [writeTarget, writeReg_status]
      exact ⟨rfl, rfl, rfl⟩
    | _ => exact ⟨rfl, rfl, rfl⟩

theorem KeepsContext.of_hostWrite (addr : Addr) (w : Word) (s : State) :
    KeepsContext s (hostWrite addr w s) := by
  obtain ⟨e, he⟩ | ⟨tg, -, -, he⟩ := hostWrite_cases addr w s
  · rw [he]
    exact ⟨rfl, rfl, rfl⟩
  · obtain ⟨rk, ctxRounds, ctxValid⟩ := KeepsContext.of_writeTarget s w tg
    rw [he]
    exact ⟨rk, ctxRounds, ctxValid⟩

theorem KeepsContext.of_entropyEdge (valid fail : Bool) (data : BitVec 128) (s : State) :
    KeepsContext s (entropyEdge valid fail data s) := by
  obtain he | ⟨-, he | ⟨v, he⟩⟩ := entropyEdge_cases valid fail data s
  all_goals
    rw [he]
    exact ⟨rfl, rfl, rfl⟩

/-- With a context, ZEROIZE alone ends it (10_state.md R47). -/
theorem CommandEnds.keepsContext_or_zeroize {s t : State} {i : Instr} (he : CommandEnds s i t)
    (hv : s.ctxValid = true) :
    KeepsContext s t ∨ (i = .zeroize ∧ t.ctxValid = false) := by
  cases he with
  | failed e _ => exact .inl (keepsContext_finish (raise e s))
  | wrote v _ => exact .inl ⟨rfl, rfl, rfl⟩
  | waits _ _ _ => exact .inl ⟨rfl, rfl, rfl⟩
  | keyRefused e => exact .inl ⟨rfl, rfl, rfl⟩
  | contextMade hc _ => rw [hv] at hc; cases hc
  | wiped => exact .inl ⟨rfl, rfl, rfl⟩
  | zeroized => exact .inr ⟨rfl, rfl⟩

/-- Settles O15, input by input. -/
theorem contextIsImmutable : Obligations.ContextIsImmutable := by
  intro s t hv hs
  obtain ⟨addr, rest, -, rfl⟩ | ⟨addr, w, rest, -, rfl⟩ | ⟨valid, fail, data, rest, -, rfl⟩ |
    ⟨rest, hr, -⟩ | ⟨rest, ht⟩ := step_cases hs
  · exact .inl ⟨rfl, rfl, rfl⟩
  · obtain ⟨rk, ctxRounds, ctxValid⟩ := KeepsContext.of_hostWrite addr w { s with inputs := rest }
    exact .inl ⟨rk, ctxRounds, ctxValid⟩
  · obtain ⟨rk, ctxRounds, ctxValid⟩ :=
      KeepsContext.of_entropyEdge valid fail data { s.noTransfer with inputs := rest }
    exact .inl ⟨rk, ctxRounds, ctxValid⟩
  · exact .inr (.inl ⟨rest, hr⟩)
  · obtain ⟨-, rfl⟩ | ⟨-, rfl⟩ | ⟨i, hb, hd, he⟩ := engineTurn_cases ht
    · exact .inl ⟨rfl, rfl, rfl⟩
    · exact .inl ⟨rfl, rfl, rfl⟩
    · obtain ⟨rk, ctxRounds, ctxValid⟩ | ⟨rfl, hz⟩ := he.keepsContext_or_zeroize hv
      · exact .inl ⟨rk, ctxRounds, ctxValid⟩
      · exact .inr (.inr ⟨hb, hd, hz⟩)

/-- Settles O7. -/
theorem invHoldsAtReset : Obligations.InvHoldsAtReset := inv_reset

/-! ### Registers and the word `STATUS` -/

/-- `CAP` reads as the capacity (10_state.md R22). -/
theorem toNat_readReg_cap (s : State) : (s.readReg .cap).toNat = Config.bufCap := by
  have := Config.bufCap_le
  simp only [State.readReg, BitVec.toNat_ofNat]
  exact Nat.mod_eq_of_lt (by omega)

/-- Settles O6. -/
theorem resetValues : Obligations.ResetValues := by
  have hbytes : ∀ sp a, State.reset.byteAt sp a = 0 := fun sp a => by cases sp <;> rfl
  have hslots : ∀ i, 1 ≤ i → i ≤ 32 → State.reset.slot i = B16.zero := fun i _ _ => slot_of_rk_zero rfl i
  exact ⟨rfl, rfl, rfl, rfl, rfl, rfl, rfl, rfl, rfl, rfl, rfl, hbytes, hslots, rfl, rfl, rfl, rfl, rfl, rfl,
    rfl, rfl, rfl, rfl, rfl, toNat_readReg_cap _⟩

/-- A byte-wide register reads back with zeros above it (10_state.md R28). -/
theorem toNat_setWidth_byte (w : Word) : ((w.setWidth 8).setWidth 32).toNat = w.toNat % 256 := by
  simp only [BitVec.toNat_setWidth]
  omega

/-- A bit of a word, as a number. -/
theorem getLsbD_iff (w : Word) (i : Nat) : w.getLsbD i = true ↔ w.toNat / 2 ^ i % 2 = 1 := by
  rw [BitVec.getLsbD, Nat.testBit_eq_decide_div_mod_eq, decide_eq_true_iff]

theorem getLsbD_zero_iff (w : Word) : w.getLsbD 0 = true ↔ w.toNat % 2 = 1 := by
  rw [getLsbD_iff, Nat.pow_zero, Nat.div_one]

/-- A one-bit register reads back with zeros above it (10_state.md R28, R37). -/
theorem toNat_setWidth_bit (w : Word) : ((BitVec.ofBool (w.getLsbD 0)).setWidth 32).toNat = w.toNat % 2 := by
  have h := getLsbD_zero_iff w
  cases hb : w.getLsbD 0 with
  | true => rw [h.1 hb]; rfl
  | false =>
    have hn : ¬ w.toNat % 2 = 1 := fun e => by rw [h.2 e] at hb; cases hb
    rw [show w.toNat % 2 = 0 by omega]; rfl

/-- A read of a register while `BUSY = 0`, as a number. -/
theorem toNat_busRead_reg {s : State} {addr : Addr} {r : Reg} {n : Nat} (ht : targetAt addr = some (.reg r))
    (hr : (s.readReg r).toNat = n) (hb : s.busy = false) : (s.busRead addr).1.toNat = n := by
  rw [busRead_idle ht hb]
  exact hr

/-- Settles O19, register by register. -/
theorem narrowRegistersStoreTheirLowBits : Obligations.NarrowRegistersStoreTheirLowBits := by
  intro s w rest hb
  have hbyte : (w.setWidth 8).toNat = w.toNat % 256 := BitVec.toNat_setWidth ..
  refine ⟨fun hi => ?_, fun hi => ?_, fun hi => ?_, fun hi => ?_⟩
  · have ht : targetAt 0x00010 = some (.reg .rounds) := rfl
    exact ⟨_, step_write_idle hb hi ht, rfl, hbyte, toNat_busRead_reg ht (toNat_setWidth_byte w) hb⟩
  · have ht : targetAt 0x00014 = some (.reg .keyLen) := rfl
    exact ⟨_, step_write_idle hb hi ht, rfl, hbyte, toNat_busRead_reg ht (toNat_setWidth_byte w) hb⟩
  · have ht : targetAt 0x00018 = some (.reg .bsize) := rfl
    exact ⟨_, step_write_idle hb hi ht, rfl, hbyte, toNat_busRead_reg ht (toNat_setWidth_byte w) hb⟩
  · have ht : targetAt 0x00024 = some (.reg .irqEn) := rfl
    exact ⟨_, step_write_idle hb hi ht, rfl, getLsbD_zero_iff w, toNat_busRead_reg ht (toNat_setWidth_bit w) hb⟩

/-- The four targets a host write leaves alone (20_memory.md R82). -/
theorem writeTarget_readOnly (s : State) (w : Word) {tg : Target}
    (h : tg = .reg .id ∨ tg = .reg .cap ∨ tg = .reg .outLen ∨ ∃ off, tg = .word .obuf off) :
    writeTarget s w tg = s := by
  obtain rfl | rfl | rfl | ⟨off, rfl⟩ := h <;> rfl

/-- A register's target, by the number of its address (20_memory.md R73). -/
theorem targetAt_of_toNat_eq {addr a : Addr} {tg : Target} (h : addr.toNat = a.toNat)
    (ht : targetAt a = some tg) : targetAt addr = some tg := by
  rw [BitVec.eq_of_toNat_eq h]
  exact ht

/-- Settles O20. -/
theorem wideAndReadOnlyTargets : Obligations.WideAndReadOnlyTargets := by
  intro s addr w rest hb hi
  have noEffect : ∀ tg, targetAt addr = some tg →
      (tg = .reg .id ∨ tg = .reg .cap ∨ tg = .reg .outLen ∨ ∃ off, tg = .word .obuf off) →
      step s = .next { s with inputs := rest, hRdata := 0, hErr := false } := fun tg ht h => by
    rw [step_write_idle hb hi ht, writeTarget_readOnly _ w h]
  refine ⟨fun ha => ?_, ?_⟩
  · exact step_write_idle hb hi (targetAt_of_toNat_eq (a := 0x0001C) (tg := .reg .inLen) ha rfl)
  · rintro (ha | ha | ha | ⟨ha, h1, h2⟩)
    · exact noEffect (.reg .id) (targetAt_of_toNat_eq (a := 0x00000) ha rfl) (by simp)
    · exact noEffect (.reg .cap) (targetAt_of_toNat_eq (a := 0x00004) ha rfl) (by simp)
    · exact noEffect (.reg .outLen) (targetAt_of_toNat_eq (a := 0x00020) ha rfl) (by simp)
    · exact noEffect _ (targetAt_space (sp := .obuf) ha h1 h2) (by simp)

/-- What a target reads as does not depend on the key material or on the command in progress. -/
theorem readTarget_hidden (s : State) (kb : Memory) (rk : Vector B16 32) (cw : Word) (l r : B8) (chain : B16)
    (blkIdx rndIdx : Nat) (padAcc : Bool) (phase : Phase) (tg : Target) :
    State.readTarget { s with keybuf := kb, rk := rk, cw := cw, l := l, r := r, chain := chain,
                              blkIdx := blkIdx, rndIdx := rndIdx, padAcc := padAcc, phase := phase } tg =
      s.readTarget tg := by
  cases tg with
  | reg r => cases r <;> rfl
  | word sp off => cases sp <;> rfl

/-- Settles O22: a read answers what its target reads as, or a constant. -/
theorem keyMaterialIsUnreadable : Obligations.KeyMaterialIsUnreadable := by
  intro s kb rk cw l r chain blkIdx rndIdx padAcc phase addr
  cases ht : targetAt addr with
  | none => rw [busRead_refused ht, busRead_refused ht]
  | some tg => simp only [State.busRead, ht, readTarget_hidden]

/-- Settles O23: the fields by their offsets, and the reserved bits between and above them. -/
theorem statusWordLayout : Obligations.StatusWordLayout := by
  intro s b
  simp only [State.statusWord, BitVec.getLsbD_append, BitVec.getLsbD_ofBool]
  by_cases hb : b < 14
  · interval_cases b <;> simp
  · have habove : ¬ b - 1 - 1 - 1 - 1 - 3 - 1 < 6 := by omega
    rw [if_neg (by omega), if_neg (by omega), if_neg (by omega), if_neg (by omega), if_neg (by omega),
      if_neg (by omega), if_neg habove, if_neg (by omega), if_neg (by omega), if_neg (by omega),
      if_neg (by omega), if_neg (by omega)]
    exact BitVec.getLsbD_zero

/-- Settles O24. -/
theorem acknowledgeClearsDoneOnly : Obligations.AcknowledgeClearsDoneOnly := by
  intro s w rest hb hi
  have ht : targetAt 0x0000C = some (.reg .status) := rfl
  rw [step_write_idle hb hi ht]
  simp only [writeTarget, writeReg_status, getLsbD_iff, Nat.pow_one]

end Sys2Proof.Machine

/-! The host bus (20_memory.md): the address map read backwards, what a transfer answers and what it changes,
each said once, and the statements about the bus settled from them. -/

namespace Sys2Proof.Machine

/-! ### The address map -/

/-- The address of a register (20_memory.md R73). -/
def Reg.address : Reg → Nat
  | .id => 0x00000
  | .cap => 0x00004
  | .cmd => 0x00008
  | .status => 0x0000C
  | .rounds => 0x00010
  | .keyLen => 0x00014
  | .bsize => 0x00018
  | .inLen => 0x0001C
  | .outLen => 0x00020
  | .irqEn => 0x00024

/-- The map of the registers and their addresses are inverse to each other. -/
theorem regAt_eq_some {a : Nat} {r : Reg} : regAt a = some r ↔ a = r.address := by
  constructor
  · intro h
    unfold regAt at h
    split_ifs at h <;> cases h <;> assumption
  · rintro rfl
    cases r <;> rfl

theorem Reg.address_mod (r : Reg) : r.address % 4 = 0 := by cases r <;> rfl

theorem Space.base_mod (sp : Space) : sp.base % 4 = 0 := by cases sp <;> rfl

/-- Every register lies below every space (20_memory.md R72). -/
theorem Space.base_ge (sp : Space) : 0x00040 ≤ sp.base := by cases sp <;> decide

theorem targetAt_reg {addr : Addr} {r : Reg} : targetAt addr = some (.reg r) ↔ addr.toNat = r.address := by
  constructor
  · intro h
    unfold targetAt at h
    split at h
    · cases h
    · split at h
      · rename_i hr
        cases h
        exact regAt_eq_some.1 hr
      · obtain ⟨sp, -, e⟩ := Option.map_eq_some_iff.1 h
        cases e
  · intro h
    have hr : regAt addr.toNat = some r := regAt_eq_some.2 h
    have ha : addr.toNat % 4 = 0 := by rw [h, r.address_mod]
    simp [targetAt, ha, hr]

/-- The word of a space by its offset. -/
theorem targetAt_base_add {addr : Addr} {sp : Space} {off : Nat} (ha : addr.toNat % 4 = 0) (ho : off < sp.size)
    (h : addr.toNat = sp.base + off) : targetAt addr = some (.word sp off) := by
  rw [targetAt_space (sp := sp) ha (by omega) (by omega), show addr.toNat - sp.base = off by omega]

/-- A mapped, aligned address has a target. -/
theorem exists_targetAt {addr : Addr} (h : ¬ (addr.toNat % 4 ≠ 0 ∨ unmappedAddr addr.toNat)) :
    ∃ tg, targetAt addr = some tg :=
  Option.ne_none_iff_exists'.1 fun hn => h ((targetAt_eq_none addr).1 hn)

/-! ### Memories and the words of a space -/

theorem mem_memWrite_same (s : State) (sp : Space) (off : Nat) (v : List Byte) :
    (s.memWrite sp off v).mem sp = (s.mem sp).writeBytes off v := by
  cases sp <;> rfl

theorem mem_memWrite_other (s : State) {sp sp' : Space} (h : sp' ≠ sp) (off : Nat) (v : List Byte) :
    (s.memWrite sp off v).mem sp' = s.mem sp' := by
  cases sp <;> cases sp' <;> first | rfl | exact absurd rfl h

/-- The response ports and the inputs to come are no part of the spaces. -/
theorem mem_ports (s : State) (d : Word) (e : Bool) (xs : List Input) (sp : Space) :
    State.mem { s with hRdata := d, hErr := e, inputs := xs } sp = s.mem sp := by
  cases sp <;> rfl

/-- Byte `k` of a word is its bits `8k+7` to `8k` (20_memory.md R76). -/
theorem toNat_laneOf (w : Word) (k : Nat) : (laneOf w k).toNat = w.toNat / 256 ^ k % 256 := by
  rw [laneOf, BitVec.extractLsb'_toNat, Nat.shiftRight_eq_div_pow, Nat.pow_mul]

theorem getD_lanesOfWord (w : Word) {k : Nat} (hk : k < 4) : (lanesOfWord w).getD k 0 = laneOf w k := by
  interval_cases k <;> rfl

/-- Storing a word puts its byte `k` `k` places on. -/
theorem Memory.read_writeBytes_lane {m : Memory} (hm : m.wf) (off : Nat) (w : Word) {k : Nat} (hk : k < 4) :
    (m.writeBytes off (lanesOfWord w)).read (off + k) = laneOf w k := by
  have hlen : (lanesOfWord w).length = 4 := rfl
  rw [Memory.read_writeBytes hm, if_pos (by omega), Nat.add_sub_cancel_left, getD_lanesOfWord w hk]

/-- KEYBUF reads 0 (10_state.md R39). -/
theorem readTarget_word (s : State) (sp : Space) (off : Nat) :
    s.readTarget (.word sp off) = if sp = .keybuf then 0 else (s.mem sp).readWord off := by
  cases sp <;> rfl

theorem writeTarget_word (s : State) (w : Word) {sp : Space} (h : sp ≠ .obuf) (off : Nat) :
    writeTarget s w (.word sp off) = s.memWrite sp off (lanesOfWord w) := by
  cases sp with
  | obuf => exact absurd rfl h
  | _ => rfl

/-! ### What a transfer answers -/

/-- The response ports and the inputs to come are read by no transfer. -/
theorem readTarget_ports (s : State) (d : Word) (e : Bool) (xs : List Input) (tg : Target) :
    State.readTarget { s with hRdata := d, hErr := e, inputs := xs } tg = s.readTarget tg := by
  cases tg with
  | reg r => cases r <;> rfl
  | word sp off => cases sp <;> rfl

theorem busRead_inputs (s : State) (xs : List Input) (addr : Addr) :
    State.busRead { s with inputs := xs } addr = s.busRead addr := by
  cases ht : targetAt addr with
  | none => rw [busRead_refused ht, busRead_refused ht]
  | some tg => simp only [State.busRead, ht, readTarget_ports s s.hRdata s.hErr xs]

/-- `h_err` of a read, busy or not (20_memory.md R83). -/
theorem busRead_err (s : State) (addr : Addr) : (s.busRead addr).2 = (targetAt addr).isNone := by
  unfold State.busRead
  split
  · rename_i ht; rw [ht]; rfl
  · rename_i ht; rw [ht]; split <;> rfl

/-- `h_err` of a write, busy or not (20_memory.md R83). -/
theorem busWrite_err (s : State) (addr : Addr) (w : Word) : (busWrite s addr w).2 = (targetAt addr).isNone := by
  unfold busWrite
  split
  · rename_i ht; rw [ht]; rfl
  · rename_i ht; rw [ht]; split <;> rfl

/-- A read while `BUSY = 1` (20_memory.md R86). -/
theorem busRead_busy {s : State} {addr : Addr} {tg : Target} (ht : targetAt addr = some tg)
    (hb : s.busy = true) :
    s.busRead addr = (if tg.readableWhileBusy then s.readTarget tg else 0, false) := by
  simp only [State.busRead, ht, hb, Bool.true_and]
  cases tg.readableWhileBusy <;> rfl

/-- What is readable while `BUSY = 1`, by address. -/
theorem readableWhileBusy_by_address (s : State) {addr : Addr} {tg : Target} (ht : targetAt addr = some tg) :
    (if tg.readableWhileBusy then s.readTarget tg else 0) =
      if addr.toNat = 0x00000 then 0x43444201
      else if addr.toNat = 0x00004 then BitVec.ofNat 32 Config.bufCap
      else if addr.toNat = 0x0000C then s.statusWord
      else 0 := by
  cases tg with
  | reg r =>
    rw [targetAt_reg.1 ht]
    cases r <;> rfl
  | word sp off =>
    obtain ⟨-, -, ha⟩ := targetAt_word ht
    have hbase := sp.base_ge
    rw [if_neg (show ¬ addr.toNat = 0x00000 by omega), if_neg (show ¬ addr.toNat = 0x00004 by omega),
      if_neg (show ¬ addr.toNat = 0x0000C by omega)]
    rfl

/-- The lanes of a word read from a readable space (20_memory.md R76). -/
theorem holdsLanes_readTarget (s : State) {sp : Space} (h : sp ≠ .keybuf) (off : Nat) :
    HoldsLanes s sp off (s.readTarget (.word sp off)) := by
  intro k hk
  rw [readTarget_word, if_neg h]
  exact Memory.readWord_lane (s.mem sp) off hk

/-- What an aligned, mapped address reads as while `BUSY = 0`, target by target. -/
theorem readsIdle_readTarget (s : State) {addr : Addr} {tg : Target} (ha : addr.toNat % 4 = 0)
    (ht : targetAt addr = some tg) : ReadsIdle s addr.toNat (s.readTarget tg) := by
  have unique : ∀ tg', targetAt addr = some tg' → tg = tg' := fun tg' ht' => Option.some.inj (ht.symm.trans ht')
  have ofReg : ∀ r : Reg, addr.toNat = r.address → s.readTarget tg = s.readReg r := fun r h => by
    rw [unique _ (targetAt_reg.2 h)]
    rfl
  have ofSpace : ∀ (sp : Space) (off : Nat), off < sp.size → addr.toNat = sp.base + off →
      tg = .word sp off := fun sp off ho h => unique _ (targetAt_base_add ha ho h)
  exact {
    id := ofReg .id
    cap := fun h => by rw [ofReg .cap h, toNat_readReg_cap]
    cmd := ofReg .cmd
    status := ofReg .status
    rounds := fun h => by
      rw [ofReg .rounds h]
      exact BitVec.toNat_setWidth_of_le (by decide)
    keyLen := fun h => by
      rw [ofReg .keyLen h]
      exact BitVec.toNat_setWidth_of_le (by decide)
    bsize := fun h => by
      rw [ofReg .bsize h]
      exact BitVec.toNat_setWidth_of_le (by decide)
    inLen := ofReg .inLen
    outLen := ofReg .outLen
    irqEn := fun h => by
      rw [ofReg .irqEn h]
      exact (BitVec.toNat_setWidth_of_le (by decide)).trans (BitVec.toNat_ofBool _)
    iv := fun off ho h => by
      rw [ofSpace .iv off ho h]
      exact holdsLanes_readTarget s (by decide) off
    keybuf := fun h1 h2 => by
      rw [ofSpace .keybuf (addr.toNat - 0x00080) (by rw [Space.size_keybuf]; omega)
        (by rw [Space.base_keybuf]; omega)]
      rfl
    ibuf := fun off ho h => by
      rw [ofSpace .ibuf off ho h]
      exact holdsLanes_readTarget s (by decide) off
    obuf := fun off ho h => by
      rw [ofSpace .obuf off ho h]
      exact holdsLanes_readTarget s (by decide) off }

/-! ### The step of a transfer -/

/-- A read changes the response ports only (20_memory.md R82). -/
theorem step_read {s : State} {addr : Addr} {rest : List Input} (hi : s.inputs = .read addr :: rest) :
    step s = .next { s with inputs := rest, hRdata := (s.busRead addr).1, hErr := (s.busRead addr).2 } := by
  rw [step_of_cons hi]
  simp only [takeInput, hostRead, busRead_inputs]

theorem step_write {s : State} {addr : Addr} {w : Word} {rest : List Input}
    (hi : s.inputs = .write addr w :: rest) : step s = .next (hostWrite addr w { s with inputs := rest }) :=
  step_of_cons hi

/-- A misaligned or unmapped write changes nothing (20_memory.md R75). -/
theorem step_write_refused {s : State} {addr : Addr} {w : Word} {rest : List Input}
    (hi : s.inputs = .write addr w :: rest) (ht : targetAt addr = none) :
    step s = .next { s with inputs := rest, hRdata := 0, hErr := true } := by
  rw [step_write hi]
  simp only [hostWrite, busWrite_refused w ht]

/-- A write while `BUSY = 1` changes nothing (20_memory.md R86). -/
theorem step_write_busy {s : State} {addr : Addr} {w : Word} {rest : List Input} {tg : Target}
    (hb : s.busy = true) (hi : s.inputs = .write addr w :: rest) (ht : targetAt addr = some tg) :
    step s = .next { s with inputs := rest, hRdata := 0, hErr := false } := by
  have hw : busWrite { s with inputs := rest } addr w = ({ s with inputs := rest }, false) :=
    busWrite_busy w ht hb
  rw [step_write hi]
  simp only [hostWrite, hw]

/-- A write to a word of `IV`, KEYBUF or IBUF while `BUSY = 0` stores its four bytes. -/
theorem step_write_space {s : State} {addr : Addr} {w : Word} {rest : List Input} {sp : Space} {off : Nat}
    (hb : s.busy = false) (hi : s.inputs = .write addr w :: rest) (ht : targetAt addr = some (.word sp off))
    (hsp : sp ≠ .obuf) :
    step s = .next (State.memWrite { s with inputs := rest, hRdata := 0, hErr := false } sp off
      (lanesOfWord w)) := by
  rw [step_write_idle hb hi ht, writeTarget_word _ w hsp]
  cases sp <;> rfl

/-! ### The statements about the bus -/

/-- Settles O17: a refused transfer has no target, and every other one has. -/
theorem busErrorExactlyWhenMisalignedOrUnmapped : Obligations.BusErrorExactlyWhenMisalignedOrUnmapped := by
  intro s addr w rest hi
  refine ⟨fun hbad => ?_, fun hok => ?_⟩
  · have ht := (targetAt_eq_none addr).2 hbad
    obtain hi | hi := hi
    · rw [step_read hi, busRead_refused ht]
    · exact step_write_refused hi ht
  · obtain ⟨tg, ht⟩ := exists_targetAt hok
    have ha : addr.toNat % 4 = 0 := by
      by_contra h
      exact hok (.inl h)
    obtain hi | hi := hi
    · have he : (s.busRead addr).2 = false := by rw [busRead_err, ht]; rfl
      refine ⟨_, step_read hi, he, fun _ => ⟨by rw [he], fun hb => ?_⟩, fun hw => ?_⟩
      · rw [busRead_idle ht hb]
        exact readsIdle_readTarget s ha ht
      · rw [hi] at hw
        cases hw
    · have he : (busWrite { s with inputs := rest } addr w).2 = false := by rw [busWrite_err, ht]; rfl
      refine ⟨_, step_write hi, he, fun hr => ?_, fun _ => rfl⟩
      rw [hi] at hr
      cases hr

/-- Settles O18. -/
theorem busyGatesTheHost : Obligations.BusyGatesTheHost := by
  intro s addr w rest hb ha hu
  obtain ⟨tg, ht⟩ := exists_targetAt (not_or.2 ⟨not_not.2 ha, hu⟩)
  refine ⟨fun hi => step_write_busy hb hi ht, fun hi => ?_⟩
  rw [step_read hi, busRead_busy ht hb, readableWhileBusy_by_address s ht]

/-- Settles O21: the step is a memory write to one space, and every clause is a clause about that. -/
theorem bufferWordsAreLittleEndian : Obligations.BufferWordsAreLittleEndian := by
  intro s sp j addr w rest hb hm hsp hj haddr hi
  have hmod := sp.base_mod
  have ht : targetAt addr = some (.word sp (4 * j)) := targetAt_base_add (by omega) hj haddr
  have hstep := step_write_space hb hi ht hsp
  have hlen : (lanesOfWord w).length = 4 := rfl
  set p : State := { s with inputs := rest, hRdata := 0, hErr := false }
  have hmem : ∀ sp', p.mem sp' = s.mem sp' := mem_ports s 0 false rest
  have hwf : (p.mem sp).wf := by rw [hmem]; exact hm.wf sp
  refine ⟨_, hstep, ?_, fun k hk => ?_, fun a ha => ?_, fun sp' a h => ?_, ?_, ?_⟩
  · cases sp <;> rfl
  · rw [State.byteAt, mem_memWrite_same, Memory.read_writeBytes_lane hwf _ w hk, toNat_laneOf]
  · rw [State.byteAt, mem_memWrite_same, Memory.read_writeBytes_outside _ _ _ (by omega), hmem]
    rfl
  · rw [State.byteAt, mem_memWrite_other p h, hmem]
    rfl
  · cases sp with
    | obuf => exact absurd rfl hsp
    | _ => rfl
  · have hidle : (p.memWrite sp (4 * j) (lanesOfWord w)).busy = false := by cases sp <;> exact hb
    rw [busRead_idle ht hidle, readTarget_word, mem_memWrite_same, Memory.readWord_writeBytes hwf]

/-! ### Transfers during a command -/

/-- While `BUSY = 1` a transfer of the host changes the response ports only (20_memory.md R86). -/
theorem step_transfer_busy {s : State} {x : Input} {rest : List Input} (hb : s.busy = true)
    (hx : x.isTransfer = true) (hi : s.inputs = x :: rest) :
    ∃ d e, step s = .next { s with inputs := rest, hRdata := d, hErr := e } := by
  cases x with
  | read addr => exact ⟨_, _, step_read hi⟩
  | write addr w =>
    obtain ⟨e, he⟩ := hostWrite_busy (s := { s with inputs := rest }) hb addr w
    exact ⟨0, e, by rw [step_write hi, he]⟩
  | _ => cases hx

/-- The engine's turn does not depend on the last answer to the host (log entry 8). -/
theorem step_engine_ports (s : State) (d : Word) (e : Bool) (rest : List Input) :
    step { s with hRdata := d, hErr := e, inputs := .engine :: rest } =
      step { s with inputs := .engine :: rest } := rfl

theorem runSteps_one (s : State) : runSteps 1 s = step s := by
  show Host.Core.run Sys2Proof.core 1 s = Sys2Proof.core.step s
  simp only [Host.Core.run]
  cases Sys2Proof.core.step s <;> rfl

/-- Settles O13, by induction on the transfers before the engine's turn: each changes the response ports
only, and the turn does not read them. -/
theorem commandIsAtomicToTheHost : Obligations.CommandIsAtomicToTheHost := by
  intro xs rest
  induction xs with
  | nil =>
    intro s _ _ hi
    rw [List.length_nil, runSteps_one, ← List.nil_append (Input.engine :: rest), ← hi]
  | cons x xs ih =>
    intro s hb hxs hi
    obtain ⟨hx, hxs⟩ := List.forall_mem_cons.1 hxs
    obtain ⟨d, e, hstep⟩ := step_transfer_busy hb hx hi
    have hrest := ih { s with inputs := xs ++ .engine :: rest, hRdata := d, hErr := e } hb hxs rfl
    exact (runSteps_succ hstep).trans (hrest.trans (step_engine_ports s d e rest))

end Sys2Proof.Machine

/-! Command words (30_encoding.md): decoding and encoding are inverse to each other, the illegal words by
number, and what becomes of a word at accept and at the engine's turn. -/

namespace Sys2Proof

/-! ### Decoding and encoding -/

/-- Every command has its row of the table (30_encoding.md R104). -/
theorem tableRow (i : Instr) : Laws.TableRow.Statement i := by
  cases i with
  | keyInit => exact Laws.TableRow.keyInit
  | blkEnc => exact Laws.TableRow.blkEnc
  | blkDec => exact Laws.TableRow.blkDec
  | cbcEnc ivsrc => exact Laws.TableRow.cbcEnc ivsrc
  | cbcDec => exact Laws.TableRow.cbcDec
  | pad => exact Laws.TableRow.pad
  | unpad => exact Laws.TableRow.unpad
  | wipe => exact Laws.TableRow.wipe
  | zeroize => exact Laws.TableRow.zeroize

theorem decode_encode (i : Instr) : decode (encode i) = .ok i := by
  obtain ⟨-, -, hdecode⟩ := tableRow i
  exact hdecode

/-- No bit of a legal word is dropped: its three fields are those of its command (30_encoding.md R101). -/
theorem fieldsOf_eq_of_decode {w : Word} {i : Instr} (h : decode w = .ok i) : fieldsOf w = i.fields := by
  obtain ⟨hreserved, hallowed, hnamed⟩ := decode_ok h
  obtain ⟨hop, hcbc, hother, hzero⟩ := decodeOpcode_ok hnamed
  have hivsrc : ivsrcOf w = i.fields.ivsrc := by
    by_cases h4 : opcodeOf w = 0x04
    · exact hcbc h4
    · rw [hother h4, Bool.eq_false_iff]
      exact fun hv => h4 (hallowed hv)
  rw [fieldsOf, hop, hivsrc, hreserved, ← hzero]

theorem encode_of_decode {w : Word} {i : Instr} (h : decode w = .ok i) : encode i = w := by
  rw [encode, ← fieldsOf_eq_of_decode h, packFields_fieldsOf]

/-- Settles O2: a legal word has the fields of its command, and a word is put together from its fields. -/
theorem decodeIffEncode : Obligations.DecodeIffEncode := by
  intro w i
  constructor
  · exact encode_of_decode
  · rintro rfl
    exact decode_encode i

/-! ### Illegal words -/

theorem reservedOf_eq_zero_iff (w : Word) : reservedOf w = 0 ↔ w.toNat < 512 := by
  rw [← BitVec.toNat_inj, toNat_reservedOf]
  change w.toNat / 512 = 0 ↔ w.toNat < 512
  omega

theorem opcodeOf_eq_cbcEnc_iff (w : Word) : opcodeOf w = 0x04 ↔ w.toNat % 256 = 4 := by
  rw [← BitVec.toNat_inj, toNat_opcodeOf]
  rfl

/-- The first test of `Decode` (30_encoding.md R107). -/
theorem decode_of_reserved {w : Word} (h : 512 ≤ w.toNat) : decode w = .error .reservedBits := by
  have hr : reservedOf w ≠ 0 := fun e => by
    have := (reservedOf_eq_zero_iff w).1 e
    omega
  rw [decode, if_pos hr]

/-- The second test of `Decode`: `IVSRC` beside another opcode than CBC_ENC's (30_encoding.md R107). -/
theorem decode_of_ivsrc {w : Word} (h1 : 256 ≤ w.toNat) (h2 : w.toNat < 512) (h3 : w.toNat ≠ 260) :
    decode w = .error .ivsrcNotAllowed := by
  have hr : reservedOf w = 0 := (reservedOf_eq_zero_iff w).2 h2
  have hv : ivsrcOf w = true := (ivsrcOf_iff w).2 (by omega)
  have ho : opcodeOf w ≠ 0x04 := fun e => by
    have := (opcodeOf_eq_cbcEnc_iff w).1 e
    omega
  rw [decode, if_neg (not_not.2 hr), if_pos ⟨hv, ho⟩]

/-- A word that passes both tests is decoded by its opcode (30_encoding.md R107). -/
theorem decode_of_opcode {w : Word} (h : w.toNat < 256 ∨ w.toNat = 260) :
    decode w = decodeOpcode (opcodeOf w) (ivsrcOf w) := by
  have hr : reservedOf w = 0 := (reservedOf_eq_zero_iff w).2 (by omega)
  have hv : ¬ (ivsrcOf w = true ∧ opcodeOf w ≠ 0x04) := by
    rintro ⟨hv, ho⟩
    have hbit := (ivsrcOf_iff w).1 hv
    exact ho ((opcodeOf_eq_cbcEnc_iff w).2 (by omega))
  rw [decode, if_neg (not_not.2 hr), if_neg hv]

/-- The opcodes without a row in the table (30_encoding.md R105). -/
theorem decodeOpcode_eq_error_iff {op : BitVec 8} {v : Bool} {e : Illegal} :
    decodeOpcode op v = .error e ↔ e = .unknownOpcode ∧ (op.toNat = 0 ∨ 10 ≤ op.toNat) := by
  unfold decodeOpcode
  split_ifs
  case neg =>
    have hop : op.toNat = 0 ∨ 10 ≤ op.toNat := by bv_omega
    exact ⟨fun h => ⟨(Except.error.inj h).symm, hop⟩, fun ⟨he, _⟩ => by rw [he]⟩
  all_goals
    subst op
    simp

/-- Settles O3, range by range: each range of numbers stops at its own test of `Decode`. -/
theorem illegalWordsAreExactlyThese : Obligations.IllegalWordsAreExactlyThese := by
  intro w
  by_cases hreserved : 512 ≤ w.toNat
  · rw [decode_of_reserved hreserved]
    simp only [Except.error.injEq, reduceCtorEq, true_iff, false_iff]
    omega
  · by_cases hpass : w.toNat < 256 ∨ w.toNat = 260
    · simp only [decode_of_opcode hpass, decodeOpcode_eq_error_iff, toNat_opcodeOf, reduceCtorEq, false_and,
        true_and, false_iff]
      omega
    · rw [decode_of_ivsrc (by omega) (by omega) (by omega)]
      simp only [Except.error.injEq, reduceCtorEq, true_iff, false_iff]
      omega

/-- Settles O1: a legal word is the encoding of its command, and an illegal one lies in its range. -/
theorem decodeOfWrittenOutWords : Obligations.DecodeOfWrittenOutWords := by
  have legal : ∀ {w : Word} {i : Instr}, encode i = w → decode w = .ok i := (decodeIffEncode _ _).2
  have unknown : ∀ {w : Word}, w.toNat = 0 ∨ (10 ≤ w.toNat ∧ w.toNat < 256) →
      decode w = .error .unknownOpcode := fun h => by
    obtain ⟨-, -, hunknown⟩ := illegalWordsAreExactlyThese _
    exact hunknown.2 h
  refine ⟨legal ?_, legal ?_, legal ?_, legal ?_, legal ?_, legal ?_, legal ?_, legal ?_, legal ?_, legal ?_,
    unknown ?_, unknown ?_, unknown ?_, decode_of_ivsrc ?_ ?_ ?_, decode_of_reserved ?_,
    decode_of_reserved ?_⟩
  all_goals decide

end Sys2Proof

namespace Sys2Proof.Machine

/-! ### Accept and the engine's turn -/

/-- Settles O25: the write reaches `CMD`, and accept is all it does. -/
theorem acceptOfAnyWord : Obligations.AcceptOfAnyWord := by
  intro s w rest hb hi
  have ht : targetAt 0x00008 = some (.reg .cmd) := targetAt_reg.2 rfl
  rw [step_write_idle hb hi ht]
  rfl

/-- The engine's turn with a legal word in `CW`. -/
theorem step_turn_command {s : State} {i : Instr} (hb : s.busy = true) (hd : decode s.cw = .ok i)
    (ht : s.inputs = [] ∨ s.inputs.head? = some .engine) :
    step s = exec i { s.noTransfer with inputs := s.inputs.tail } := by
  rw [step_turn ht]
  exact engineTurn_command hb hd

/-- The engine's turn with an illegal word in `CW` (30_encoding.md R105, R106). -/
theorem step_turn_illegal {s : State} {e : Illegal} (hb : s.busy = true) (hd : decode s.cw = .error e)
    (ht : s.inputs = [] ∨ s.inputs.head? = some .engine) :
    step s = complete (raise .illegalCommand { s.noTransfer with inputs := s.inputs.tail }) := by
  rw [step_turn ht]
  exact engineTurn_illegal hb hd

/-- Settles O4. -/
theorem stepRunsDecodedCommand : Obligations.StepRunsDecodedCommand := by
  intro s i rest hb hd
  constructor
  · intro hi
    rw [step_of_nil hi]
    exact engineTurn_command hb hd
  · intro hi
    rw [step_turn_command hb hd (.inr (by rw [hi]; rfl)), hi, List.tail_cons]

/-- Settles O5: the step is complete with a failure, which has no other effect. -/
theorem illegalWordCompletesWithIllegalCommand : Obligations.IllegalWordCompletesWithIllegalCommand :=
  fun _ _ hb hd ht => ⟨_, step_turn_illegal hb hd ht, failsWith_raise _ _⟩

/-- Complete ends the command, whatever its result (30_encoding.md R111). -/
theorem exists_ended_of_complete {s : State} {p : Result × State} (h : step s = complete p) :
    ∃ t, step s = .next t ∧ t.busy = false ∧ t.done = true ∧ t.phase = .idle := by
  have hc := completed_finish p
  exact ⟨finish p, h, hc.busy, hc.done, hc.work.phase⟩

/-- Settles O11: a word is illegal, or its command completes, or it is the CBC_ENC that waits; the statement's
hypothesis on that one says that it does not wait. -/
theorem engineTurnCompletesTheCommand : Obligations.EngineTurnCompletesTheCommand := by
  intro s hb ht hready
  cases hd : decode s.cw with
  | error e => exact exists_ended_of_complete (step_turn_illegal hb hd ht)
  | ok i =>
    have hstep := step_turn_command hb hd ht
    obtain ⟨p, hp⟩ | ⟨rfl, -, hvalid, hfits, hrun, hfinish⟩ :=
      exec_complete_or_wait i { s.noTransfer with inputs := s.inputs.tail }
    · exact exists_ended_of_complete (hstep.trans hp)
    · obtain h | h | h | h := hready hd
      · exact absurd (hvalid.symm.trans h) (by decide)
      · exact absurd hfits (Nat.not_le.2 h)
      · exact absurd h hrun
      · exact absurd h hfinish

end Sys2Proof.Machine

/-! Key Schedule (40_key_schedule.md): what KEY_INIT answers in each of its three cases, the context it creates,
and the statements about it settled from them. -/

namespace Sys2Proof.Machine

/-! ### What KEY_INIT answers -/

/-- KEY_INIT with a context (40_key_schedule.md R132). -/
theorem exec_keyInit_withContext {s : State} (hv : s.ctxValid = true) :
    exec .keyInit s = .next (finish (dropKey (raise .illegalCommand s))) := by
  rw [exec_keyInit, if_pos hv]

/-- KEY_INIT with an operand out of range (40_key_schedule.md R133). -/
theorem exec_keyInit_badOperands {s : State} (hv : s.ctxValid = false)
    (hk : keyOperandsBad s.keyLen.toNat s.rounds.toNat = true) :
    exec .keyInit s = .next (finish (dropKey (raise .invalidKey s))) := by
  rw [exec_keyInit, if_neg (ne_true_of_eq_false hv), if_pos hk]

/-- KEY_INIT that creates the context (40_key_schedule.md R134). -/
theorem exec_keyInit_createContext {s : State} (hv : s.ctxValid = false)
    (hk : keyOperandsBad s.keyLen.toNat s.rounds.toNat = false) :
    exec .keyInit s = .next (finish (dropKey (.ok, createContext s))) := by
  rw [exec_keyInit, if_neg (ne_true_of_eq_false hv), if_neg (ne_true_of_eq_false hk)]

/-- The operands KEY_INIT refuses (40_key_schedule.md R133). -/
theorem keyOperandsBad_eq_true {k r : Nat} :
    keyOperandsBad k r = true ↔ k = 0 ∨ 64 < k ∨ r = 0 ∨ 32 < r := by
  rw [← not_iff_not, Bool.not_eq_true, keyOperandsBad_eq_false]
  omega

/-! ### The key given up and the frame -/

/-- After a command that gives up its key, every byte of KEYBUF reads 0 (40_key_schedule.md R136). -/
theorem byteAt_keybuf_dropKey (p : Result × State) (a : Nat) :
    (finish (dropKey p)).byteAt .keybuf a = 0 := by
  simp [State.byteAt, State.mem, dropKey]

theorem keyLen_dropKey (p : Result × State) : (finish (dropKey p)).keyLen = 0 := by
  simp [dropKey]

theorem KeepsConfig.of_finish_dropKey (p : Result × State) : KeepsConfig p.2 (finish (dropKey p)) := by
  constructor <;> simp [dropKey]

theorem KeepsData.of_finish_dropKey (p : Result × State) : KeepsData p.2 (finish (dropKey p)) := by
  constructor <;> simp [dropKey, State.byteAt, State.mem]

theorem KeepsBus.of_finish_dropKey (p : Result × State) : KeepsBus p.2 (finish (dropKey p)) := by
  constructor <;> simp [dropKey]

theorem KeepsContext.of_finish_dropKey (p : Result × State) : KeepsContext p.2 (finish (dropKey p)) := by
  constructor <;> simp [dropKey]

/-- Settles O29: the key is given up after the result, whatever that is. -/
theorem keyInitErasesTheKeyOnEveryPath : Obligations.KeyInitErasesTheKeyOnEveryPath :=
  fun s => ⟨_, exec_keyInit s, keyLen_dropKey _, byteAt_keybuf_dropKey _⟩

/-- Settles O28: in both cases KEY_INIT raises the failure, and gives up the key. -/
theorem keyInitFailures : Obligations.KeyInitFailures := by
  intro s e h
  have hexec : exec .keyInit s = .next (finish (dropKey (raise e s))) := by
    obtain ⟨hv, rfl⟩ | ⟨hv, rfl, hbad⟩ := h
    · exact exec_keyInit_withContext hv
    · exact exec_keyInit_badOperands hv (keyOperandsBad_eq_true.2 hbad)
  exact ⟨_, hexec, completed_finish (dropKey (raise e s)), ⟨rfl, fun _ => rfl⟩, .of_finish_dropKey (raise e s),
    .of_finish_dropKey (raise e s), .of_finish_dropKey (raise e s), .of_finish_dropKey (raise e s),
    keyLen_dropKey _, byteAt_keybuf_dropKey _⟩

/-! ### The context created -/

/-- The slots up to the round count hold the subkeys of `KS` (40_key_schedule.md R131, R134). -/
theorem slot_createContext_below {s : State} {i : Nat} (hi : i < s.rounds.toNat) (hr : s.rounds.toNat ≤ 32) :
    (createContext s).slot (i + 1) = (Config.KS s.keyBytes s.rounds.toNat)[i] := by
  simp only [State.slot, createContext_rk, storeKeys, Nat.add_sub_cancel]
  rw [Vector.getElem?_eq_getElem (by omega), Vector.getElem_ofFn, dif_pos hi, Option.getD_some]

/-- Without a context every slot is `0^16` (10_state.md R46). -/
theorem State.Inv.rk_of_noContext {s : State} (h : s.Inv) (hv : s.ctxValid = false) :
    s.rk = Vector.replicate 32 B16.zero := by
  refine Vector.ext fun i hi => ?_
  have h0 : s.ctxRounds = 0 := h.noContext.1 hv
  have hslot : s.slot (i + 1) = B16.zero := h.unusedSlots (i + 1) (by rw [h0]; simp) (by omega)
  rw [State.slot, Nat.add_sub_cancel, Vector.getElem?_eq_getElem hi, Option.getD_some] at hslot
  rw [hslot, Vector.getElem_replicate]

/-- Settles O27: the slots below `ROUNDS` are `KS`'s, and those above were zero, there being no context. -/
theorem keyInitCreatesTheContext : Obligations.KeyInitCreatesTheContext := by
  intro s hinv hv hk1 hk2 hr1 hr2
  have hexec := exec_keyInit_createContext hv (keyOperandsBad_eq_false.2 ⟨⟨hk1, hk2⟩, hr1, hr2⟩)
  have hcontext := KeepsContext.of_finish_dropKey (.ok, createContext s)
  refine ⟨_, hexec, completed_finish (dropKey (.ok, createContext s)), rfl, ?_, fun i hi => ?_,
    fun i h1 h2 => ?_, keyLen_dropKey _, byteAt_keybuf_dropKey _, ⟨rfl, rfl, rfl⟩,
    ⟨rfl, fun _ => rfl, fun _ => rfl⟩, ⟨rfl, rfl, rfl⟩, rfl, fun _ => rfl⟩
  · rw [hcontext.ctxRounds]
    exact toNat_createContext_ctxRounds hr2
  · rw [hcontext.slot]
    exact slot_createContext_below hi hr2
  · rw [hcontext.slot, slot_createContext_above h1 h2]
    exact slot_of_rk_zero (hinv.rk_of_noContext hv) i

/-! ### Determinism -/

/-- The key is the first `KEY_LEN` bytes of KEYBUF and nothing else (40_key_schedule.md R137). -/
theorem keyBytes_congr {s s' : State} (hl : s.keyLen = s'.keyLen)
    (hb : ∀ a, a < s.keyLen.toNat → s.byteAt .keybuf a = s'.byteAt .keybuf a) : s.keyBytes = s'.keyBytes := by
  unfold State.keyBytes State.memRead Memory.readBytes
  rw [← hl]
  refine List.map_congr_left fun a ha => ?_
  rw [Nat.zero_add]
  exact hb a (List.mem_range.1 ha)

/-- The context created is a function of the store, the key and `ROUNDS` (40_key_schedule.md R135). -/
theorem createContext_rk_congr {s s' : State} (hs : s.rk = s'.rk) (hr : s.rounds = s'.rounds)
    (hk : s.keyBytes = s'.keyBytes) : (createContext s).rk = (createContext s').rk := by
  rw [createContext_rk, createContext_rk, hs, hr, hk]

/-- Settles O30: both runs pass or fail the test on the operands together, and both start from an empty
store. -/
theorem keyInitIsDeterministic : Obligations.KeyInitIsDeterministic := by
  intro s s' hinv hinv' hv hv' hl hr hb
  have hrk : s.rk = s'.rk := (hinv.rk_of_noContext hv).trans (hinv'.rk_of_noContext hv').symm
  have hbad : keyOperandsBad s'.keyLen.toNat s'.rounds.toNat = keyOperandsBad s.keyLen.toNat s.rounds.toNat := by
    rw [hl, hr]
  cases hk : keyOperandsBad s.keyLen.toNat s.rounds.toNat with
  | true =>
    have hrounds : s.ctxRounds = s'.ctxRounds := (hinv.noContext.1 hv).trans (hinv'.noContext.1 hv').symm
    exact ⟨_, _, exec_keyInit_badOperands hv hk, exec_keyInit_badOperands hv' (hbad.trans hk), hrk, hrounds,
      hv.trans hv'.symm, rfl⟩
  | false =>
    have hrounds : (createContext s).ctxRounds = (createContext s').ctxRounds := by
      rw [createContext_ctxRounds, createContext_ctxRounds, hr]
    exact ⟨_, _, exec_keyInit_createContext hv hk, exec_keyInit_createContext hv' (hbad.trans hk),
      createContext_rk_congr hrk hr (keyBytes_congr hl hb), hrounds, rfl, rfl⟩

end Sys2Proof.Machine

/-! Block Primitive (41_block_primitive.md): `EncBlock` and `DecBlock` one round at a time, what the two block
commands answer with a context and without one, and the statements about them settled from that. -/

namespace Sys2Proof.Machine

/-! ### EncBlock and DecBlock one round at a time -/

@[simp] theorem encBlock_nil (F : B8 → B16 → B8) (b : B16) : encBlock F [] b = b :=
  joinHalves_halves b

@[simp] theorem decBlock_nil (F : B8 → B16 → B8) (c : B16) : decBlock F [] c = c :=
  joinHalves_halves c

/-- The first subkey's round of `EncBlock` comes first (41_block_primitive.md R152). -/
theorem encBlock_cons (F : B8 → B16 → B8) (k : B16) (ks : List B16) (b : B16) :
    encBlock F (k :: ks) b =
      encBlock F ks (joinHalves (rightHalf b) (xorBytes (leftHalf b) (F (rightHalf b) k))) := by
  simp only [encBlock, List.foldl_cons, feistelRound, leftHalf_joinHalves, rightHalf_joinHalves]

/-- The last subkey's round of `EncBlock` comes last. -/
theorem encBlock_concat (F : B8 → B16 → B8) (ks : List B16) (k b : B16) :
    encBlock F (ks ++ [k]) b =
      joinHalves (rightHalf (encBlock F ks b))
        (xorBytes (leftHalf (encBlock F ks b)) (F (rightHalf (encBlock F ks b)) k)) := by
  simp only [encBlock, List.foldl_append, List.foldl_cons, List.foldl_nil, feistelRound, leftHalf_joinHalves,
    rightHalf_joinHalves]

/-- The first subkey's round of `DecBlock` comes last (41_block_primitive.md R153, R154). -/
theorem decBlock_cons (F : B8 → B16 → B8) (k : B16) (ks : List B16) (c : B16) :
    decBlock F (k :: ks) c =
      joinHalves (xorBytes (rightHalf (decBlock F ks c)) (F (leftHalf (decBlock F ks c)) k))
        (leftHalf (decBlock F ks c)) := by
  simp only [decBlock, List.reverse_cons, List.foldl_append, List.foldl_cons, List.foldl_nil, feistelInvRound,
    leftHalf_joinHalves, rightHalf_joinHalves]

/-- R157: the round `DecBlock` does last undoes the one `EncBlock` did first. -/
theorem decBlock_encBlock (F : B8 → B16 → B8) (ks : List B16) (b : B16) :
    decBlock F ks (encBlock F ks b) = b := by
  induction ks generalizing b with
  | nil => simp
  | cons k ks ih => rw [encBlock_cons, decBlock_cons, ih]; simp

/-- R158: the round `EncBlock` does first undoes the one `DecBlock` did last. -/
theorem encBlock_decBlock (F : B8 → B16 → B8) (ks : List B16) (c : B16) :
    encBlock F ks (decBlock F ks c) = c := by
  induction ks with
  | nil => simp
  | cons k ks ih => rw [decBlock_cons, encBlock_cons]; simpa using ih

/-- Settles O31. -/
theorem encBlockAndDecBlockAreInverse : Obligations.EncBlockAndDecBlockAreInverse :=
  fun F ks b => ⟨decBlock_encBlock F ks b, encBlock_decBlock F ks b⟩

/-- Settles O32, by induction on the subkeys: the first round exchanges the halves, and the parity of the rounds
left is the other one. -/
theorem zeroRoundFunctionExchangesTheHalves : Obligations.ZeroRoundFunctionExchangesTheHalves := by
  intro ks
  induction ks with
  | nil => intro l r; simp
  | cons k ks ih =>
    intro l r
    rw [encBlock_cons, leftHalf_joinHalves, rightHalf_joinHalves, xorBytes_zero, ih, List.length_cons]
    by_cases hodd : ks.length % 2 = 1
    · rw [if_pos hodd, if_neg (by omega)]
    · rw [if_neg hodd, if_pos (by omega)]

/-- Settles O33. -/
theorem encBlockRoundByRound : Obligations.EncBlockRoundByRound :=
  fun F ks k b => ⟨encBlock_nil F b, encBlock_concat F ks k b⟩

/-! ### The context's subkeys and the input block -/

@[simp] theorem length_contextKeys (s : State) : s.contextKeys.length = s.ctxRounds.toNat := by
  simp [State.contextKeys]

/-- The subkeys are the slots from `RK[1]` on, in order (10_state.md R46). -/
theorem getElem?_contextKeys {s : State} {i : Nat} (hi : i < s.ctxRounds.toNat) :
    s.contextKeys[i]? = some (s.slot (i + 1)) := by
  simp [State.contextKeys, hi]

/-- The subkeys are those of the context and depend on nothing else. -/
theorem KeepsContext.contextKeys {s t : State} (h : KeepsContext s t) : t.contextKeys = s.contextKeys := by
  rw [State.contextKeys, h.ctxRounds]
  exact List.map_congr_left fun k _ => h.slot (k + 1)

theorem getElem_inputBlock (s : State) {a : Nat} (ha : a < 16) : s.inputBlock[a] = s.byteAt .ibuf a := by
  rw [State.inputBlock, getElem_blockAt, Nat.zero_add, State.memRead, Memory.getD_readBytes _ _ _ _ ha,
    Nat.zero_add]
  rfl

/-! ### What the block commands answer -/

/-- BLK_ENC with a context (41_block_primitive.md R160). -/
theorem exec_blkEnc_withContext {s : State} (hv : s.ctxValid = true) :
    exec .blkEnc s =
      .next (finish (.ok, s.output (encBlock Config.F s.contextKeys s.inputBlock).toList)) := by
  rw [exec_blkEnc, if_neg (by simp [hv])]

/-- BLK_DEC with a context (41_block_primitive.md R161). -/
theorem exec_blkDec_withContext {s : State} (hv : s.ctxValid = true) :
    exec .blkDec s =
      .next (finish (.ok, s.output (decBlock Config.F s.contextKeys s.inputBlock).toList)) := by
  rw [exec_blkDec, if_neg (by simp [hv])]

/-- Without a context the test on it is the only one a block or CBC command makes (41_block_primitive.md
R162). -/
theorem exec_noContext {s : State} {i : Instr} (hv : s.ctxValid = false)
    (hi : i = .blkEnc ∨ i = .blkDec ∨ i = .cbcEnc false ∨ i = .cbcEnc true ∨ i = .cbcDec) :
    exec i s = .next (finish (raise .illegalCommand s)) := by
  have hc : (!s.ctxValid) = true := by simp [hv]
  obtain rfl | rfl | rfl | rfl | rfl := hi
  · rw [exec_blkEnc, if_pos hc]
  · rw [exec_blkDec, if_pos hc]
  · rw [exec_cbcEnc_drawn, if_pos hc]
  · rw [exec_cbcEnc_supplied, if_pos hc]
  · rw [exec_cbcDec, if_pos hc]

/-- Settles O36. -/
theorem noContextIsIllegalCommand : Obligations.NoContextIsIllegalCommand :=
  fun s _ hv hi => ⟨_, exec_noContext hv hi, failsWith_raise .illegalCommand s⟩

/-- One block as output: it fits whatever the capacity (00_scope.md R10). -/
theorem finish_output_block {s : State} (hm : s.obuf.wf) (b : B16) :
    Completed .ok (finish (.ok, s.output b.toList)) ∧ WritesOutput b.toList s (finish (.ok, s.output b.toList)) ∧
      OnlyOutputChanges s (finish (.ok, s.output b.toList)) := by
  have hcap := Config.bufCap_ge
  exact finish_output hm (by rw [Vector.length_toList]; omega)

/-- Settles O34. -/
theorem blkEncWritesEncBlock : Obligations.BlkEncWritesEncBlock :=
  fun s hv hm => ⟨length_contextKeys s, fun _ hi => getElem?_contextKeys hi, _, exec_blkEnc_withContext hv,
    finish_output_block hm _⟩

/-- Settles O35. -/
theorem blkDecWritesDecBlock : Obligations.BlkDecWritesDecBlock :=
  fun _ hv hm => ⟨_, exec_blkDec_withContext hv, finish_output_block hm _⟩

/-! ### One block command after the other -/

/-- The bytes of OBUF after a block command are those of its output block. -/
theorem byteAt_obuf_output_block {s : State} (hm : s.obuf.wf) (b : B16) {a : Nat} (ha : a < 16) :
    (finish (.ok, s.output b.toList)).byteAt .obuf a = b[a] := by
  show (s.obuf.writeBytes 0 b.toList).read a = b[a]
  rw [Memory.read_writeBytes hm, if_pos (by simpa using ha)]
  simp [ha]

/-- Two commands that write functions `f` and `g` of their input blocks: when `g` undoes `f`, the second one on
the output of the first gives the input of the first back. -/
theorem block_commands_roundTrip {s t u : State} {i j : Instr} {f g : B16 → B16} (hfg : ∀ b, g (f b) = b)
    (hi : exec i s = .next (finish (.ok, s.output (f s.inputBlock).toList)))
    (hj : exec j u = .next (finish (.ok, u.output (g u.inputBlock).toList)))
    (hs : s.obuf.wf) (ht : exec i s = .next t) (hu : u.obuf.wf)
    (hcopy : ∀ a, a < 16 → u.byteAt .ibuf a = t.byteAt .obuf a) :
    ∃ v, exec j u = .next v ∧ Completed .ok v ∧ v.outLen = 16 ∧
      ∀ a, a < 16 → v.byteAt .obuf a = s.byteAt .ibuf a := by
  obtain rfl : finish (.ok, s.output (f s.inputBlock).toList) = t := by
    rw [hi] at ht; exact Host.Outcome.next.inj ht
  have hin : u.inputBlock = f s.inputBlock := Vector.ext fun a ha => by
    rw [getElem_inputBlock u ha, hcopy a ha, byteAt_obuf_output_block hs _ ha]
  have hout : g u.inputBlock = s.inputBlock := by rw [hin, hfg]
  rw [hout] at hj
  refine ⟨_, hj, (finish_output_block hu _).1, ?_, fun a ha => ?_⟩
  · rw [finish_ok_outLen, output_outLen, Vector.length_toList]; rfl
  · rw [byteAt_obuf_output_block hu _ ha, getElem_inputBlock s ha]

/-- Settles O37: the two commands use the same subkeys, under which `DecBlock` and `EncBlock` undo each other. -/
theorem blockCommandsRoundTrip : Obligations.BlockCommandsRoundTrip := by
  intro s t u i j hij hv hs ht hctx hu hcopy
  have hvu : u.ctxValid = true := hctx.ctxValid.trans hv
  obtain ⟨rfl, rfl⟩ | ⟨rfl, rfl⟩ := hij
  · have hdec := exec_blkDec_withContext hvu
    rw [hctx.contextKeys] at hdec
    exact block_commands_roundTrip (decBlock_encBlock Config.F s.contextKeys) (exec_blkEnc_withContext hv) hdec
      hs ht hu hcopy
  · have henc := exec_blkEnc_withContext hvu
    rw [hctx.contextKeys] at henc
    exact block_commands_roundTrip (encBlock_decBlock Config.F s.contextKeys) (exec_blkDec_withContext hv) henc
      hs ht hu hcopy

end Sys2Proof.Machine

/-! Chaining Mode (42_cbc_mode.md): what `Unpad` makes of a padded string, `CbcEncrypt` and `CbcDecrypt` block by
block, what the two CBC commands answer, and the statements about them settled from that. -/

namespace Sys2Proof.Machine

/-! ### Pad and Unpad -/

/-- The accumulated test fails exactly when the test on the pad count or one of the comparisons does
(43_padding_codec.md R203). -/
theorem padBad_eq (d : List Byte) (bs : Nat) :
    padBad d bs = (padCountBad d bs || (List.range bs).any (padMismatch d)) := by
  rw [padBad]
  generalize padCountBad d bs = b
  induction List.range bs generalizing b with
  | nil => simp
  | cons k ks ih => rw [List.foldl_cons, ih, List.any_cons, Bool.or_assoc]

theorem padCount_bounds {m bs : Nat} (h : 1 ≤ bs) : 1 ≤ padCount m bs ∧ padCount m bs ≤ bs := by
  have hm := Nat.mod_lt m h
  rw [padCount_eq h]
  omega

theorem length_pad_eq_add (d : List Byte) (bs : Nat) : (pad d bs).length = d.length + padCount d.length bs := by
  simp [pad]

/-- Every byte after the data is the pad count (43_padding_codec.md R200). -/
theorem getD_pad_of_ge {d : List Byte} {bs k : Nat} (h1 : d.length ≤ k) (h2 : k < (pad d bs).length) :
    (pad d bs).getD k 0 = BitVec.ofNat 8 (padCount d.length bs) := by
  rw [length_pad_eq_add] at h2
  rw [pad, List.getD_eq_getElem?_getD, List.getElem?_append_right h1, List.getElem?_replicate,
    if_pos (by omega), Option.getD_some]

theorem toNat_lastByte_pad (d : List Byte) {bs : Nat} (h1 : 1 ≤ bs) (h2 : bs ≤ 255) :
    (lastByte (pad d bs)).toNat = padCount d.length bs := by
  obtain ⟨hp1, hp2⟩ := padCount_bounds (m := d.length) h1
  have hl := length_pad_eq_add d bs
  rw [lastByte, getD_pad_of_ge (by omega) (by omega), BitVec.toNat_ofNat]
  exact Nat.mod_eq_of_lt (by omega)

/-- The bytes of a padded string that its pad count covers all equal it (43_padding_codec.md R202). -/
theorem padMismatch_pad (d : List Byte) {bs : Nat} (h1 : 1 ≤ bs) (h2 : bs ≤ 255) (k : Nat) :
    padMismatch (pad d bs) k = false := by
  obtain ⟨hp1, hp2⟩ := padCount_bounds (m := d.length) h1
  have hl := length_pad_eq_add d bs
  rw [padMismatch, toNat_lastByte_pad d h1 h2]
  by_cases hk : k < padCount d.length bs
  · rw [lastByte, getD_pad_of_ge (by omega) (by omega), getD_pad_of_ge (by omega) (by omega)]
    simp
  · simp [hk]

theorem padLengthBad_pad (d : List Byte) {bs : Nat} (h : 1 ≤ bs) : padLengthBad (pad d bs) bs = false := by
  have hp : 0 < (pad d bs).length := by
    obtain ⟨hp, -⟩ := padCount_bounds (m := d.length) h
    rw [length_pad_eq_add]
    omega
  have hmod : (pad d bs).length % bs = 0 := by rw [length_pad d h, paddedLength, Nat.mul_mod_right]
  simp [padLengthBad, hmod, Nat.ne_of_gt hp]

theorem padBad_pad (d : List Byte) {bs : Nat} (h1 : 1 ≤ bs) (h2 : bs ≤ 255) : padBad (pad d bs) bs = false := by
  obtain ⟨hp1, hp2⟩ := padCount_bounds (m := d.length) h1
  have hlast := toNat_lastByte_pad d h1 h2
  have hcount : padCountBad (pad d bs) bs = false := by
    have hne : lastByte (pad d bs) ≠ 0 := fun e => by
      have hzero : (lastByte (pad d bs)).toNat = 0 := congrArg BitVec.toNat e
      omega
    rw [padCountBad, beq_eq_false_iff_ne.2 hne, hlast, Bool.false_or, decide_eq_false (by omega)]
  simp [padBad_eq, hcount, padMismatch_pad d h1 h2]

theorem stripPad_pad (d : List Byte) {bs : Nat} (h1 : 1 ≤ bs) (h2 : bs ≤ 255) : stripPad (pad d bs) = d := by
  rw [stripPad, toNat_lastByte_pad d h1 h2, length_pad_eq_add, Nat.add_sub_cancel, pad, List.take_left]

/-- `Unpad` undoes `Pad` (43_padding_codec.md R206). -/
theorem unpad_pad (d : List Byte) {bs : Nat} (h1 : 1 ≤ bs) (h2 : bs ≤ 255) : unpad (pad d bs) bs = .ok d := by
  simp [unpad, padLengthBad_pad d h1, padBad_pad d h1 h2, stripPad_pad d h1 h2]

theorem eq_invalidPadding_of_unpad {d : List Byte} {bs : Nat} {e : Failure} (h : unpad d bs = .error e) :
    e = .invalidPadding := by
  unfold unpad at h
  split at h
  · cases h; rfl
  · split at h
    · cases h; rfl
    · cases h

/-- A string that `Unpad` accepts loses at least one byte and at most a block (43_padding_codec.md R203). -/
theorem length_bounds_of_unpad {d v : List Byte} {bs : Nat} (h : unpad d bs = .ok v) :
    d.length - bs ≤ v.length ∧ v.length ≤ d.length - 1 := by
  unfold unpad at h
  split at h
  · cases h
  · split at h
    · cases h
    · rename_i hbad
      cases h
      simp only [padBad_eq, padCountBad, Bool.or_eq_true, beq_iff_eq, decide_eq_true_eq, not_or] at hbad
      obtain ⟨⟨hzero, hle⟩, -⟩ := hbad
      have hpos : (lastByte d).toNat ≠ 0 := fun e => hzero (BitVec.eq_of_toNat_eq e)
      rw [stripPad, List.length_take]
      omega

/-! ### CbcEncrypt and CbcDecrypt block by block -/

/-- Block `j` of the concatenation of blocks. -/
theorem blockAt_joinBlocks {bs : List B16} {j : Nat} (h : j < bs.length) :
    blockAt (joinBlocks bs) (16 * j) = bs[j] := by
  rw [← getElem_blocks _ _ (by simpa using h)]
  simp only [blocks_joinBlocks]

/-- The blocks of a string that has a first one. -/
theorem blocks_eq_cons {e : List Byte} (h : 16 ≤ e.length) :
    blocks e = blockAt e 0 :: blocks (e.drop 16) := by
  have he : (blockAt e 0).toList ++ e.drop 16 = e := by
    rw [toList_blockAt_zero e h, List.take_append_drop]
  rw [← blocks_cons, he]

/-- An envelope is its blocks: the IV, then the ciphertext (42_cbc_mode.md R170). -/
theorem cbcEncrypt_eq_joinBlocks (F : B8 → B16 → B8) (ks : List B16) (p : List Byte) (iv : B16) :
    cbcEncrypt F ks p iv = joinBlocks (iv :: cbcEncBlocks F ks iv (blocks (pad p 16))) := rfl

/-- `C_j = EncBlock(P_j xor C_(j-1))`, with the value before the first block as `C_0` (42_cbc_mode.md R172). -/
theorem getElem_cbcEncBlocks (F : B8 → B16 → B8) (ks : List B16) (prev : B16) (ps : List B16) {j : Nat}
    (h : j < ps.length) :
    (prev :: cbcEncBlocks F ks prev ps)[j + 1]'(by simpa using h) =
      encBlock F ks (xorBytes ps[j] ((prev :: cbcEncBlocks F ks prev ps)[j]'(by simp; omega))) := by
  induction ps generalizing prev j with
  | nil => simp at h
  | cons p ps ih =>
    cases j with
    | zero => rfl
    | succ j => exact ih (encBlock F ks (xorBytes p prev)) (by simpa using h)

/-- `P_j = DecBlock(C_j) xor C_(j-1)`, with the value before the first block as `C_0` (42_cbc_mode.md R177). -/
theorem getElem_cbcDecBlocks (F : B8 → B16 → B8) (ks : List B16) (prev : B16) (cs : List B16) {j : Nat}
    (h : j < cs.length) :
    (cbcDecBlocks F ks prev cs)[j]'(by simpa using h) =
      xorBytes (decBlock F ks cs[j]) ((prev :: cs)[j]'(by simp; omega)) := by
  induction cs generalizing prev j with
  | nil => simp at h
  | cons c cs ih =>
    cases j with
    | zero => rfl
    | succ j => exact ih c (by simpa using h)

/-- The chain of decryption undoes the chain of encryption: both run along the ciphertext. -/
theorem cbcDecBlocks_cbcEncBlocks (F : B8 → B16 → B8) (ks : List B16) (prev : B16) (ps : List B16) :
    cbcDecBlocks F ks prev (cbcEncBlocks F ks prev ps) = ps := by
  induction ps generalizing prev with
  | nil => rfl
  | cons p ps ih => rw [cbcEncBlocks, cbcDecBlocks, ih, decBlock_encBlock, xorBytes_xorBytes_right]

theorem cbcRecover_cbcEncrypt (F : B8 → B16 → B8) (ks : List B16) (p : List Byte) (iv : B16) :
    cbcRecover F ks (cbcEncrypt F ks p iv) = pad p Config.cbcBs := by
  have hmod : (pad p Config.cbcBs).length % 16 = 0 := by
    rw [length_pad p (by decide), paddedLength, Nat.mul_mod_right]
  rw [cbcEncrypt, cbcRecover, blockAt_append, drop_append_block, blocks_joinBlocks, cbcDecBlocks_cbcEncBlocks,
    joinBlocks_blocks _ hmod]

/-- The length of the recovered string (42_cbc_mode.md R176). -/
theorem length_cbcRecover (F : B8 → B16 → B8) (ks : List B16) {e : List Byte} (h : e.length % 16 = 0) :
    (cbcRecover F ks e).length = e.length - 16 := by
  simp only [cbcRecover, length_joinBlocks, length_cbcDecBlocks, length_blocks, List.length_drop]
  omega

/-- Block `j` of the recovered string (42_cbc_mode.md R177). -/
theorem blockAt_cbcRecover (F : B8 → B16 → B8) (ks : List B16) {e : List Byte} {j : Nat}
    (hmod : e.length % 16 = 0) (hj : 16 * (j + 1) < e.length) :
    blockAt (cbcRecover F ks e) (16 * j) =
      xorBytes (decBlock F ks (blockAt e (16 * (j + 1)))) (blockAt e (16 * j)) := by
  have hcons := blocks_eq_cons (e := e) (by omega)
  have hcs : j < (blocks (e.drop 16)).length := by rw [length_blocks, List.length_drop]; omega
  have hlen : (blocks e).length = e.length / 16 := length_blocks e
  have hcur : (blocks (e.drop 16))[j] = blockAt e (16 * (j + 1)) := by
    rw [← getElem_blocks e (j + 1) (by omega)]
    simp only [hcons, List.getElem_cons_succ]
  have hprev : (blockAt e 0 :: blocks (e.drop 16))[j]'(by simp only [List.length_cons]; omega) =
      blockAt e (16 * j) := by
    rw [← getElem_blocks e j (by omega)]
    simp only [hcons]
  rw [cbcRecover, blockAt_joinBlocks (by simpa using hcs), getElem_cbcDecBlocks F ks _ _ hcs, hcur, hprev]

/-- A common block cancels out of the difference of two. -/
theorem xorBytes_xorBytes_left {n : Nat} (x y z : Vector Byte n) :
    xorBytes (xorBytes x y) (xorBytes x z) = xorBytes y z := by
  rw [xorBytes_comm x y, xorBytes_comm x z, ← xorBytes_assoc (xorBytes y x) z x, xorBytes_assoc y x z,
    xorBytes_comm x z, ← xorBytes_assoc y z x, xorBytes_xorBytes_right]

theorem validEnvelopeLength_iff {m : Nat} : validEnvelopeLength m = true ↔ 32 ≤ m ∧ (m - 16) % 16 = 0 := by
  simp [validEnvelopeLength, Config.envMin]

/-- `CbcDecrypt` of an envelope of a valid length (42_cbc_mode.md R176). -/
theorem cbcDecrypt_of_valid (F : B8 → B16 → B8) (ks : List B16) {e : List Byte}
    (h : validEnvelopeLength e.length = true) :
    cbcDecrypt F ks e = unpad (cbcRecover F ks e) Config.cbcBs := by
  simp [cbcDecrypt, h]

/-- `CbcDecrypt` succeeds on an envelope of a valid length only. -/
theorem validEnvelopeLength_of_cbcDecrypt {F : B8 → B16 → B8} {ks : List B16} {e p : List Byte}
    (h : cbcDecrypt F ks e = .ok p) : validEnvelopeLength e.length = true := by
  unfold cbcDecrypt at h
  split at h
  · cases h
  · rename_i hv
    simpa using hv

theorem validEnvelopeLength_envelopeLength (m : Nat) : validEnvelopeLength (envelopeLength m) = true := by
  rw [validEnvelopeLength_iff, envelopeLength]
  omega

/-- R178. -/
theorem cbcDecrypt_cbcEncrypt (F : B8 → B16 → B8) (ks : List B16) (p : List Byte) (iv : B16) :
    cbcDecrypt F ks (cbcEncrypt F ks p iv) = .ok p := by
  have hv : validEnvelopeLength (cbcEncrypt F ks p iv).length = true := by
    rw [length_cbcEncrypt, validEnvelopeLength_envelopeLength]
  rw [cbcDecrypt_of_valid F ks hv, cbcRecover_cbcEncrypt, unpad_pad p (by decide) (by decide)]

/-! ### The statements about the two functions -/

/-- Settles O45. -/
theorem envelopeShape : Obligations.EnvelopeShape :=
  fun F ks p iv => ⟨length_cbcEncrypt F ks p iv, List.take_left' (Vector.length_toList)⟩

/-- Settles O46: the blocks of the envelope are the IV and the ciphertext blocks. -/
theorem encryptionChainsCiphertext : Obligations.EncryptionChainsCiphertext := by
  intro F ks p iv j hj
  have hblocks : (blocks (pad p 16)).length = p.length / 16 + 1 := by
    rw [length_blocks, length_pad p (by decide), paddedLength, Nat.mul_div_cancel_left _ (by decide)]
  have hlen : (iv :: cbcEncBlocks F ks iv (blocks (pad p 16))).length = p.length / 16 + 2 := by simp [hblocks]
  rw [cbcEncrypt_eq_joinBlocks, blockAt_joinBlocks (by omega), blockAt_joinBlocks (by omega),
    getElem_cbcEncBlocks F ks iv _ (by omega), getElem_blocks]

/-- Settles O47. -/
theorem decryptionChainsCiphertext : Obligations.DecryptionChainsCiphertext :=
  fun F ks _ _ _ hmod hj => ⟨length_cbcRecover F ks hmod, blockAt_cbcRecover F ks hmod hj⟩

/-- Settles O48: the decrypted block is the same in both, and cancels out. -/
theorem damageFlipsTheSameBitsOfTheNextBlock : Obligations.DamageFlipsTheSameBitsOfTheNextBlock := by
  intro F ks e e' j _ hmod hlen hj hsame
  rw [blockAt_cbcRecover F ks hmod hj, blockAt_cbcRecover F ks (by omega) (by omega), hsame,
    xorBytes_xorBytes_left]

/-- Settles O49. -/
theorem cbcDecryptInvertsCbcEncrypt : Obligations.CbcDecryptInvertsCbcEncrypt := cbcDecrypt_cbcEncrypt

/-! ### What CBC_ENC answers -/

/-- CBC_ENC with the IV of the register, its tests passed (42_cbc_mode.md R182). -/
theorem exec_cbcEnc_supplied_fits {s : State} (hv : s.ctxValid = true)
    (hfit : envelopeLength s.inLen.toNat ≤ Config.bufCap) :
    exec (.cbcEnc true) s =
      .next (finish (.ok, s.output (cbcEncrypt Config.F s.contextKeys s.inputBytes s.ivBlock))) := by
  rw [exec_cbcEnc_supplied, if_neg (by simp [hv]), if_neg (by omega)]

/-- CBC_ENC with an IV to be drawn, its tests passed: the answer of the entropy source decides
(42_cbc_mode.md R183). -/
theorem exec_cbcEnc_drawn_fits {s : State} (hv : s.ctxValid = true)
    (hfit : envelopeLength s.inLen.toNat ≤ Config.bufCap) :
    exec (.cbcEnc false) s =
      if s.phase = .run then
        .next (finish (.ok, s.output (cbcEncrypt Config.F s.contextKeys s.inputBytes s.chain)))
      else if s.phase = .finish then .next (finish (raise .entropySourceUnavailable s))
      else .next { s with phase := .waitEntropy } := by
  rw [exec_cbcEnc_drawn, if_neg (by simp [hv]), if_neg (by omega)]

/-- Before the answer CBC_ENC waits. -/
theorem exec_cbcEnc_waits {s : State} (hv : s.ctxValid = true)
    (hfit : envelopeLength s.inLen.toNat ≤ Config.bufCap) (hp : s.phase = .check ∨ s.phase = .waitEntropy) :
    exec (.cbcEnc false) s = .next { s with phase := .waitEntropy } := by
  have hrun : s.phase ≠ .run := by obtain h | h := hp <;> simp [h]
  have hfinish : s.phase ≠ .finish := by obtain h | h := hp <;> simp [h]
  rw [exec_cbcEnc_drawn_fits hv hfit, if_neg hrun, if_neg hfinish]

/-- With the drawn IV in `CHAIN`, CBC_ENC encrypts under it. -/
theorem exec_cbcEnc_run {s : State} (hv : s.ctxValid = true)
    (hfit : envelopeLength s.inLen.toNat ≤ Config.bufCap) (hp : s.phase = .run) :
    exec (.cbcEnc false) s =
      .next (finish (.ok, s.output (cbcEncrypt Config.F s.contextKeys s.inputBytes s.chain))) := by
  rw [exec_cbcEnc_drawn_fits hv hfit, if_pos hp]

/-- After `Unavailable` CBC_ENC fails (60_exceptions.md R244). -/
theorem exec_cbcEnc_unavailable {s : State} (hv : s.ctxValid = true)
    (hfit : envelopeLength s.inLen.toNat ≤ Config.bufCap) (hp : s.phase = .finish) :
    exec (.cbcEnc false) s = .next (finish (raise .entropySourceUnavailable s)) := by
  rw [exec_cbcEnc_drawn_fits hv hfit, if_neg (by simp [hp]), if_pos hp]

/-- In both forms CBC_ENC with its IV at hand writes an envelope of the input. -/
theorem exists_iv_exec_cbcEnc {s : State} {ivsrc : Bool} (hv : s.ctxValid = true)
    (hfit : envelopeLength s.inLen.toNat ≤ Config.bufCap) (hp : ivsrc = false → s.phase = .run) :
    ∃ iv, exec (.cbcEnc ivsrc) s =
      .next (finish (.ok, s.output (cbcEncrypt Config.F s.contextKeys s.inputBytes iv))) := by
  cases ivsrc with
  | true => exact ⟨_, exec_cbcEnc_supplied_fits hv hfit⟩
  | false => exact ⟨_, exec_cbcEnc_run hv hfit (hp rfl)⟩

/-- CBC_ENC makes the test on the capacity before it looks at where its IV comes from (42_cbc_mode.md R184). -/
theorem exec_cbcEnc_tooLong {s : State} (ivsrc : Bool) (hv : s.ctxValid = true)
    (hlong : Config.bufCap < envelopeLength s.inLen.toNat) :
    exec (.cbcEnc ivsrc) s = .next (finish (raise .allocationFailure s)) := by
  have hc : ¬ (!s.ctxValid) = true := by simp [hv]
  cases ivsrc with
  | true => rw [exec_cbcEnc_supplied, if_neg hc, if_pos hlong]
  | false => rw [exec_cbcEnc_drawn, if_neg hc, if_pos hlong]

/-- An envelope that fits, as output. -/
theorem finish_output_envelope {s : State} (hm : s.obuf.wf)
    (hfit : envelopeLength s.inLen.toNat ≤ Config.bufCap) (iv : B16) :
    let e := cbcEncrypt Config.F s.contextKeys s.inputBytes iv
    Completed .ok (finish (.ok, s.output e)) ∧ WritesOutput e s (finish (.ok, s.output e)) ∧
      OnlyOutputChanges s (finish (.ok, s.output e)) :=
  finish_output hm (cbcEncrypt_fits (Nat.not_lt.2 hfit) iv)

/-- Settles O38. -/
theorem cbcEncWithSuppliedIv : Obligations.CbcEncWithSuppliedIv :=
  fun _ hv hfit hm => ⟨_, exec_cbcEnc_supplied_fits hv hfit, finish_output_envelope hm hfit _⟩

/-- Settles O39, phase by phase. -/
theorem cbcEncWithDrawnIv : Obligations.CbcEncWithDrawnIv :=
  fun s hv hfit hm =>
    ⟨fun hp => ⟨_, exec_cbcEnc_waits hv hfit hp, rfl, rfl⟩,
      fun hp => ⟨_, exec_cbcEnc_run hv hfit hp, finish_output_envelope hm hfit _⟩,
      fun hp => ⟨_, exec_cbcEnc_unavailable hv hfit hp, failsWith_raise .entropySourceUnavailable s⟩⟩

/-- Settles O42: the capacity is a multiple of 16, so the longest message is one byte short of the last block. -/
theorem cbcEncCapacity : Obligations.CbcEncCapacity := by
  refine ⟨fun s ivsrc hv hlong => ⟨_, exec_cbcEnc_tooLong ivsrc hv hlong, failsWith_raise _ s⟩, fun m => ?_⟩
  have hge := Config.bufCap_ge
  have hmod := Config.bufCap_mod
  omega

/-! ### What CBC_DEC answers -/

/-- CBC_DEC of an input that `CbcDecrypt` accepts: that it has a valid length follows. -/
theorem exec_cbcDec_ok {s : State} {p : List Byte} (hv : s.ctxValid = true)
    (hcap : s.inLen.toNat ≤ Config.bufCap) (h : cbcDecrypt Config.F s.contextKeys s.inputBytes = .ok p) :
    exec .cbcDec s = .next (finish (.ok, s.output p)) := by
  have hvalid := validEnvelopeLength_of_cbcDecrypt h
  rw [cbcDecrypt_of_valid _ _ hvalid] at h
  rw [length_inputBytes] at hvalid
  rw [exec_cbcDec, if_neg (by simp [hv]), if_neg (by simp [hvalid]), if_neg (by omega), h]

/-- CBC_DEC of an input of a valid length that `CbcDecrypt` refuses: only the padding can be wrong
(42_cbc_mode.md R186). -/
theorem exec_cbcDec_error {s : State} {e : Failure} (hv : s.ctxValid = true)
    (hvalid : validEnvelopeLength s.inLen.toNat = true) (hcap : s.inLen.toNat ≤ Config.bufCap)
    (h : cbcDecrypt Config.F s.contextKeys s.inputBytes = .error e) :
    exec .cbcDec s = .next (finish (raise .invalidPadding s)) := by
  rw [cbcDecrypt_of_valid _ _ (by rw [length_inputBytes, hvalid])] at h
  obtain rfl := eq_invalidPadding_of_unpad h
  rw [exec_cbcDec, if_neg (by simp [hv]), if_neg (by simp [hvalid]), if_neg (by omega), h]

/-- The test on the length comes first (42_cbc_mode.md R175). -/
theorem exec_cbcDec_badLength {s : State} (hv : s.ctxValid = true)
    (h : validEnvelopeLength s.inLen.toNat = false) :
    exec .cbcDec s = .next (finish (raise .invalidLength s)) := by
  rw [exec_cbcDec, if_neg (by simp [hv]), if_pos (by simp [h])]

/-- The test on the capacity comes second (42_cbc_mode.md R187). -/
theorem exec_cbcDec_tooLong {s : State} (hv : s.ctxValid = true)
    (hvalid : validEnvelopeLength s.inLen.toNat = true) (hlong : Config.bufCap < s.inLen.toNat) :
    exec .cbcDec s = .next (finish (raise .allocationFailure s)) := by
  rw [exec_cbcDec, if_neg (by simp [hv]), if_neg (by simp [hvalid]), if_pos hlong]

/-- The plaintext is the envelope without its IV and its pad, the pad being 1 to 16 bytes
(42_cbc_mode.md R186). -/
theorem length_bounds_of_cbcDecrypt {F : B8 → B16 → B8} {ks : List B16} {e p : List Byte}
    (h : cbcDecrypt F ks e = .ok p) : e.length - 32 ≤ p.length ∧ p.length ≤ e.length - 17 := by
  have hvalid := validEnvelopeLength_of_cbcDecrypt h
  rw [cbcDecrypt_of_valid _ _ hvalid] at h
  obtain ⟨hmin, hmod⟩ := validEnvelopeLength_iff.1 hvalid
  have hbounds := length_bounds_of_unpad h
  rw [length_cbcRecover _ _ (by omega), Config.cbcBs] at hbounds
  omega

/-- Settles O43. -/
theorem cbcDecOutcomes : Obligations.CbcDecOutcomes := by
  intro s hv hmin hmod hcap hm
  have hvalid : validEnvelopeLength s.inLen.toNat = true := validEnvelopeLength_iff.2 ⟨hmin, by omega⟩
  constructor
  · intro p hp
    have hbounds := length_bounds_of_cbcDecrypt hp
    rw [Memory.length_readBytes] at hbounds
    obtain ⟨hdone, hout, hframe⟩ := finish_output (v := p) hm (by omega)
    exact ⟨_, exec_cbcDec_ok hv hcap hp, hdone, hout, hframe, by rw [hout.outLen]; exact hbounds⟩
  · intro e he
    exact ⟨_, exec_cbcDec_error hv hvalid hcap he, failsWith_raise .invalidPadding s⟩

/-- Settles O44. -/
theorem cbcDecLengthTests : Obligations.CbcDecLengthTests := by
  intro s hv
  constructor
  · intro hbad
    have hinvalid : validEnvelopeLength s.inLen.toNat = false := by
      rw [← Bool.not_eq_true, validEnvelopeLength_iff]
      omega
    exact ⟨_, exec_cbcDec_badLength hv hinvalid, failsWith_raise .invalidLength s⟩
  · intro hmin hmod hlong
    have hvalid := validEnvelopeLength_iff.2 ⟨hmin, hmod⟩
    exact ⟨_, exec_cbcDec_tooLong hv hvalid hlong, failsWith_raise .allocationFailure s⟩

/-! ### CBC_ENC and then CBC_DEC -/

/-- The bytes of OBUF where a command wrote its output. -/
theorem WritesOutput.byteAt {v : List Byte} {s t : State} (h : WritesOutput v s t) {a : Nat}
    (ha : a < v.length) : t.byteAt .obuf a = v.getD a 0 := by
  have hread := Memory.getD_readBytes t.obuf 0 v.length a ha
  rw [h.stored, Nat.zero_add] at hread
  exact hread.symm

theorem getD_inputBytes (s : State) {a : Nat} (ha : a < s.inLen.toNat) :
    s.inputBytes.getD a 0 = s.byteAt .ibuf a := by
  rw [State.inputBytes, State.memRead, Memory.getD_readBytes _ _ _ _ ha, Nat.zero_add]
  rfl

/-- The input is a string when `IN_LEN` is its length and IBUF holds its bytes. -/
theorem inputBytes_eq {s : State} {v : List Byte} (hlen : s.inLen.toNat = v.length)
    (hbytes : ∀ a, a < v.length → s.byteAt .ibuf a = v.getD a 0) : s.inputBytes = v := by
  refine List.ext_getElem (by rw [length_inputBytes, hlen]) fun a h1 h2 => ?_
  have hbyte := (getD_inputBytes s (hlen ▸ h2)).trans (hbytes a h2)
  rwa [List.getD_eq_getElem _ _ h1, List.getD_eq_getElem _ _ h2] at hbyte

/-- Settles O50: the input of CBC_DEC is the envelope of the input of CBC_ENC, and R178 applies. -/
theorem cbcCommandsRoundTrip : Obligations.CbcCommandsRoundTrip := by
  intro s t u ivsrc hv hs hfit hp ht hctx hu hlen hcopy
  obtain ⟨iv, henc⟩ := exists_iv_exec_cbcEnc hv hfit hp
  obtain rfl := Host.Outcome.next.inj (henc.symm.trans ht)
  obtain ⟨-, hwritten, -⟩ := finish_output_envelope hs hfit iv
  have houtLen : u.inLen.toNat = (cbcEncrypt Config.F s.contextKeys s.inputBytes iv).length := by
    rw [hlen, hwritten.outLen]
  have hinput : u.inputBytes = cbcEncrypt Config.F s.contextKeys s.inputBytes iv :=
    inputBytes_eq houtLen fun a ha =>
      (hcopy a (by rw [hwritten.outLen]; exact ha)).trans (hwritten.byteAt ha)
  have hplain : cbcDecrypt Config.F u.contextKeys u.inputBytes = .ok s.inputBytes := by
    rw [hinput, hctx.contextKeys, cbcDecrypt_cbcEncrypt]
  have hcap : u.inLen.toNat ≤ Config.bufCap := by
    rw [houtLen, length_cbcEncrypt, length_inputBytes]
    exact hfit
  have hin := length_inputBytes s
  have hshort : s.inputBytes.length ≤ Config.bufCap := by omega
  obtain ⟨hdone, hout, -⟩ := finish_output hu hshort
  refine ⟨_, exec_cbcDec_ok (hctx.ctxValid.trans hv) hcap hplain, hdone, ?_, fun a ha => ?_⟩
  · exact BitVec.eq_of_toNat_eq (hout.outLen.trans hin)
  · rw [hout.byteAt (by omega), getD_inputBytes s ha]

/-! ### A whole CBC_ENC with a generated IV -/

/-- Byte `k` of the block on `ent_data` is its bits `8k+7` to `8k` (20_memory.md R78). -/
theorem toNat_getElem_blockOfEntData (data : BitVec 128) {k : Nat} (hk : k < 16) :
    (blockOfEntData data)[k].toNat = data.toNat / 256 ^ k % 256 := by
  simp only [blockOfEntData, Vector.getElem_ofFn, BitVec.extractLsb'_toNat]
  rw [Nat.shiftRight_eq_div_pow, Nat.pow_mul]

/-- A request answered with 16 bytes (60_exceptions.md R268). -/
theorem entropyEdge_valid {s : State} (hp : s.phase = .waitEntropy) (data : BitVec 128) :
    entropyEdge true false data s = { s with phase := .run, chain := blockOfEntData data } := by
  have hr : s.entReq = true := by simp [State.entReq, hp]
  rw [entropyEdge, if_pos hr, if_neg (by decide), if_pos rfl]

/-- A CBC_ENC with `IVSRC = 0` in progress, accepted in `s`: where its sequencer stands, what is in `CHAIN`,
and the inputs to come. -/
def drawing (s : State) (p : Phase) (c : B16) (xs : List Input) : State :=
  { accept 0x00000004 s.noTransfer with phase := p, chain := c, inputs := xs }

theorem decode_cw_drawing (s : State) (p : Phase) (c : B16) (xs : List Input) :
    decode (drawing s p c xs).cw = .ok (.cbcEnc false) := decode_encode (.cbcEnc false)

theorem step_accept_drawing {s : State} {rest : List Input} (hb : s.busy = false)
    (hi : s.inputs = .write 0x00008 0x00000004 :: rest) : step s = .next (drawing s .check s.chain rest) :=
  acceptOfAnyWord s _ rest hb hi

theorem step_drawing_check {s : State} {c : B16} {rest : List Input} (hv : s.ctxValid = true)
    (hfit : envelopeLength s.inLen.toNat ≤ Config.bufCap) :
    step (drawing s .check c (.engine :: rest)) = .next (drawing s .waitEntropy c rest) := by
  rw [step_turn_command rfl (decode_cw_drawing _ _ _ _) (.inr rfl)]
  exact exec_cbcEnc_waits hv hfit (.inl rfl)

theorem step_drawing_answer (s : State) (c : B16) (data : BitVec 128) (rest : List Input) :
    step (drawing s .waitEntropy c (.entropy true false data :: rest)) =
      .next (drawing s .run (blockOfEntData data) rest) := by
  rw [step_of_cons rfl]
  exact congrArg Host.Outcome.next (entropyEdge_valid rfl data)

theorem step_drawing_run {s : State} {iv : B16} {rest : List Input} (hv : s.ctxValid = true)
    (hfit : envelopeLength s.inLen.toNat ≤ Config.bufCap) :
    step (drawing s .run iv (.engine :: rest)) =
      .next (finish (.ok, (drawing s .run iv rest).output (cbcEncrypt Config.F
        (drawing s .run iv rest).contextKeys (drawing s .run iv rest).inputBytes iv))) := by
  rw [step_turn_command rfl (decode_cw_drawing _ _ _ _) (.inr rfl)]
  exact exec_cbcEnc_run (s := drawing s .run iv rest) hv hfit rfl

/-- The first 16 bytes of an envelope are the IV (42_cbc_mode.md R168). -/
theorem getD_cbcEncrypt_iv (F : B8 → B16 → B8) (ks : List B16) (p : List Byte) (iv : B16) {k : Nat}
    (hk : k < 16) : (cbcEncrypt F ks p iv).getD k 0 = iv[k] := by
  have hfirst : blockAt (cbcEncrypt F ks p iv) 0 = iv := blockAt_append iv _
  rw [← congrArg (fun b : B16 => b[k]) hfirst, getElem_blockAt, Nat.zero_add]

/-- Settles O41: accept, the tests, the answer, and encryption under what was drawn. -/
theorem generatedIvEndToEnd : Obligations.GeneratedIvEndToEnd := by
  intro s data _ hb hv hfit hi
  have hrun := (runSteps_succ (n := 3) (step_accept_drawing hb hi)).trans <|
    (runSteps_succ (step_drawing_check hv hfit)).trans <|
    (runSteps_succ (step_drawing_answer s s.chain data [.engine])).trans <|
    (runSteps_one _).trans (step_drawing_run hv hfit)
  obtain ⟨hdone, hout, hctx, hconfig, hkey, hdata, -⟩ :=
    finish_output_envelope (s := drawing s .run (blockOfEntData data) []) Memory.wf_nil hfit (blockOfEntData data)
  have hlen := hout.outLen
  rw [length_cbcEncrypt, length_inputBytes] at hlen
  refine ⟨_, hrun, hdone, hlen, fun k hk => ?_, fun a ha => ?_, ?_, ?_, ?_, ?_⟩
  · have hk' : k < 16 * (s.inLen.toNat / 16 + 2) := by omega
    rw [hout.byteAt (by rw [length_cbcEncrypt, length_inputBytes]; exact hk'), getD_cbcEncrypt_iv _ _ _ _ hk,
      toNat_getElem_blockOfEntData data hk]
  · exact hout.outside a (by rwa [hout.outLen] at ha)
  · exact ⟨hctx.rk, hctx.ctxRounds, hctx.ctxValid⟩
  · exact ⟨hconfig.rounds, hconfig.bsize, hconfig.irqEn⟩
  · exact ⟨hkey.keyLen, hkey.keybuf⟩
  · exact ⟨hdata.inLen, hdata.iv, hdata.ibuf⟩

end Sys2Proof.Machine

/-! Padding Codec (43_padding_codec.md): the tests of `Unpad` as a predicate on the string, `Pad` and `Unpad`
against it, what PAD and UNPAD answer, and the statements about them settled from that. -/

namespace Sys2Proof.Machine

/-! ### The tests of Unpad -/

/-- Tests (a) to (e) of `Unpad` (43_padding_codec.md R203). -/
structure PassesPadTests (d : List Byte) (bs : Nat) : Prop where
  nonempty : d.length ≠ 0
  wholeBlocks : d.length % bs = 0
  count_ne_zero : (lastByte d).toNat ≠ 0
  count_le : (lastByte d).toNat ≤ bs
  padBytes : ∀ k, d.length - (lastByte d).toNat ≤ k → k < d.length → d.getD k 0 = lastByte d

theorem padLengthBad_eq_false_iff {d : List Byte} {bs : Nat} :
    padLengthBad d bs = false ↔ d.length ≠ 0 ∧ d.length % bs = 0 := by
  simp [padLengthBad]

theorem padCountBad_eq_false_iff {d : List Byte} {bs : Nat} :
    padCountBad d bs = false ↔ (lastByte d).toNat ≠ 0 ∧ (lastByte d).toNat ≤ bs := by
  have hzero : (lastByte d).toNat = 0 ↔ lastByte d = 0 := (BitVec.toNat_inj (y := 0))
  simp [padCountBad, hzero]

theorem padMismatch_eq_false_iff {d : List Byte} {k : Nat} :
    padMismatch d k = false ↔ (k < (lastByte d).toNat → d.getD (d.length - 1 - k) 0 = lastByte d) := by
  rw [padMismatch, Bool.and_eq_false_imp, decide_eq_true_iff, bne_eq_false_iff_eq]

theorem padBad_eq_false_iff {d : List Byte} {bs : Nat} :
    padBad d bs = false ↔ padCountBad d bs = false ∧ ∀ k, k < bs → padMismatch d k = false := by
  rw [padBad_eq, Bool.or_eq_false_iff, List.any_eq_false]
  simp only [List.mem_range, Bool.not_eq_true]

/-- A string of whole blocks that is not empty has at least one. -/
theorem PassesPadTests.count_le_length {d : List Byte} {bs : Nat} (h : PassesPadTests d bs) :
    (lastByte d).toNat ≤ d.length :=
  Nat.le_trans h.count_le (Nat.le_of_dvd (Nat.pos_of_ne_zero h.nonempty) (Nat.dvd_of_mod_eq_zero h.wholeBlocks))

/-- The scan counts back from the last byte; the byte `k` places before it is the byte `n - 1 - k`. -/
theorem passesPadTests_iff {d : List Byte} {bs : Nat} :
    PassesPadTests d bs ↔ padLengthBad d bs = false ∧ padBad d bs = false := by
  rw [padLengthBad_eq_false_iff, padBad_eq_false_iff, padCountBad_eq_false_iff]
  constructor
  · intro h
    refine ⟨⟨h.nonempty, h.wholeBlocks⟩, ⟨h.count_ne_zero, h.count_le⟩, fun k _ => ?_⟩
    have hn := h.count_le_length
    exact padMismatch_eq_false_iff.2 fun hk => h.padBytes _ (by omega) (by omega)
  · rintro ⟨⟨hnonempty, hblocks⟩, ⟨hzero, hle⟩, hscan⟩
    refine ⟨hnonempty, hblocks, hzero, hle, fun k hfrom hlt => ?_⟩
    have hbyte := padMismatch_eq_false_iff.1 (hscan (d.length - 1 - k) (by omega)) (by omega)
    rwa [show d.length - 1 - (d.length - 1 - k) = k by omega] at hbyte

theorem unpad_of_passes {d : List Byte} {bs : Nat} (h : PassesPadTests d bs) :
    unpad d bs = .ok (stripPad d) := by
  obtain ⟨hlength, hbad⟩ := passesPadTests_iff.1 h
  simp [unpad, hlength, hbad]

theorem unpad_of_not_passes {d : List Byte} {bs : Nat} (h : ¬ PassesPadTests d bs) :
    unpad d bs = .error .invalidPadding := by
  rw [passesPadTests_iff, not_and, Bool.not_eq_false] at h
  unfold unpad
  split
  · rfl
  · rename_i hlength
    rw [if_pos (h (by simpa using hlength))]

/-- What `Unpad` accepts passes the tests, and the result is the string without its pad. -/
theorem passes_of_unpad {d y : List Byte} {bs : Nat} (h : unpad d bs = .ok y) :
    PassesPadTests d bs ∧ y = stripPad d := by
  by_cases hp : PassesPadTests d bs
  · rw [unpad_of_passes hp] at h
    exact ⟨hp, (Except.ok.inj h).symm⟩
  · rw [unpad_of_not_passes hp] at h
    cases h

/-- Settles O52: `lastByte` is the statement's `d[n-1]`, and bytes are equal when their values are. -/
theorem unpadAcceptsExactly : Obligations.UnpadAcceptsExactly := by
  intro d bs _ _ n p good
  have hiff : good ↔ PassesPadTests d bs := by
    constructor
    · rintro ⟨hnonempty, hblocks, hzero, hle, hbytes⟩
      exact ⟨hnonempty, hblocks, hzero, hle, fun k hfrom hlt => BitVec.eq_of_toNat_eq (hbytes k hfrom hlt)⟩
    · rintro ⟨hnonempty, hblocks, hzero, hle, hbytes⟩
      exact ⟨hnonempty, hblocks, hzero, hle, fun k hfrom hlt => congrArg BitVec.toNat (hbytes k hfrom hlt)⟩
  exact ⟨fun hgood => unpad_of_passes (hiff.1 hgood), fun hbad => unpad_of_not_passes (mt hiff.2 hbad)⟩

/-! ### Padded strings -/

/-- Settles O51. -/
theorem padShape : Obligations.PadShape := by
  intro d bs h1 h2
  obtain ⟨hp1, hp2⟩ := padCount_bounds (m := d.length) h1
  rw [← padCount_eq h1]
  refine ⟨length_pad d h1, List.take_left, hp1, hp2, length_pad_eq_add d bs, fun k hfrom hlt => ?_⟩
  rw [getD_pad_of_ge hfrom hlt, BitVec.toNat_ofNat]
  exact Nat.mod_eq_of_lt (by omega)

/-- A string of whole blocks less `p` bytes needs `p` bytes to be whole blocks again. -/
theorem padCount_sub {n p bs : Nat} (hn : n ≠ 0) (hmod : n % bs = 0) (hp : p ≠ 0) (hle : p ≤ bs) :
    padCount (n - p) bs = p := by
  obtain ⟨c, rfl⟩ := Nat.dvd_of_mod_eq_zero hmod
  obtain ⟨c, rfl⟩ : ∃ c', c = c' + 1 := Nat.exists_eq_succ_of_ne_zero (right_ne_zero_of_mul hn)
  have hrest : bs * (c + 1) - p = bs * c + (bs - p) := by rw [Nat.mul_succ]; omega
  rw [padCount_eq (by omega), hrest, Nat.mul_add_mod, Nat.mod_eq_of_lt (by omega)]
  omega

/-- The end of a string that passes the tests is its last byte, as often as that byte says. -/
theorem PassesPadTests.drop_eq_replicate {d : List Byte} {bs : Nat} (h : PassesPadTests d bs) :
    d.drop (d.length - (lastByte d).toNat) = List.replicate (lastByte d).toNat (lastByte d) := by
  have hn := h.count_le_length
  refine List.ext_getElem (by rw [List.length_drop, List.length_replicate]; omega) fun k h1 _ => ?_
  rw [List.length_drop] at h1
  rw [List.getElem_drop, List.getElem_replicate]
  exact (List.getD_eq_getElem _ _ _).symm.trans (h.padBytes _ (by omega) (by omega))

/-- A string that passes the tests is the `Pad` of what it is without its pad (43_padding_codec.md R206). -/
theorem PassesPadTests.pad_stripPad {d : List Byte} {bs : Nat} (h : PassesPadTests d bs) :
    pad (stripPad d) bs = d := by
  have hlen : (stripPad d).length = d.length - (lastByte d).toNat := by
    rw [stripPad, List.length_take, Nat.min_eq_left (Nat.sub_le _ _)]
  rw [pad, hlen, padCount_sub h.nonempty h.wholeBlocks h.count_ne_zero h.count_le, BitVec.ofNat_toNat,
    BitVec.setWidth_eq, ← h.drop_eq_replicate, stripPad, List.take_append_drop]

/-- Settles O53. -/
theorem unpadInvertsPad : Obligations.UnpadInvertsPad := by
  intro bs h1 h2
  refine ⟨fun x => unpad_pad x h1 h2, fun d y h => ?_⟩
  obtain ⟨hpasses, rfl⟩ := passes_of_unpad h
  exact hpasses.pad_stripPad

/-! ### Another last byte -/

/-- A string with its last byte replaced. -/
def withLastByte (d : List Byte) (b : Byte) : List Byte := d.take (d.length - 1) ++ [b]

theorem length_withLastByte {d : List Byte} (h : d.length ≠ 0) (b : Byte) :
    (withLastByte d b).length = d.length := by
  rw [withLastByte, List.length_append, List.length_take, List.length_singleton]
  omega

theorem take_withLastByte {d : List Byte} {n : Nat} (h : n ≤ d.length - 1) (b : Byte) :
    (withLastByte d b).take n = d.take n := by
  rw [withLastByte, List.take_append_of_le_length (by rw [List.length_take]; omega), List.take_take,
    Nat.min_eq_left h]

theorem getD_withLastByte_of_lt {d : List Byte} {k : Nat} (h : k < d.length - 1) (b : Byte) :
    (withLastByte d b).getD k 0 = d.getD k 0 := by
  rw [withLastByte, List.getD_append _ _ _ _ (by rw [List.length_take]; omega), List.getD_eq_getElem?_getD,
    List.getElem?_take_of_lt h, ← List.getD_eq_getElem?_getD]

theorem lastByte_withLastByte {d : List Byte} (h : d.length ≠ 0) (b : Byte) :
    lastByte (withLastByte d b) = b := by
  have hlen : (d.take (d.length - 1)).length = d.length - 1 := by rw [List.length_take]; omega
  rw [lastByte, length_withLastByte h, withLastByte, List.getD_append_right _ _ _ _ (Nat.le_of_eq hlen), hlen,
    Nat.sub_self, List.getD_cons_zero]

/-- Without its last byte a string does not depend on it. -/
theorem stripPad_withLastByte {d : List Byte} {b : Byte} (h : d.length ≠ 0) (hb : b.toNat ≠ 0) :
    stripPad (withLastByte d b) = d.take (d.length - b.toNat) := by
  rw [stripPad, lastByte_withLastByte h, length_withLastByte h, take_withLastByte (by omega)]

theorem length_pad_ne_zero (x : List Byte) {bs : Nat} (h : 1 ≤ bs) : (pad x bs).length ≠ 0 :=
  (padLengthBad_eq_false_iff.1 (padLengthBad_pad x h)).1

/-- With another last byte the length is still good, and the other tests are about that byte and the
bytes before it that it claims. -/
theorem passesPadTests_withLastByte_pad {x : List Byte} {bs : Nat} (h : 1 ≤ bs) (b : Byte) :
    PassesPadTests (withLastByte (pad x bs) b) bs ↔
      b.toNat ≠ 0 ∧ b.toNat ≤ bs ∧
        ∀ k, (pad x bs).length - b.toNat ≤ k → k < (pad x bs).length - 1 → (pad x bs).getD k 0 = b := by
  obtain ⟨hne, hmod⟩ := padLengthBad_eq_false_iff.1 (padLengthBad_pad x h)
  have hlen := length_withLastByte hne b
  have hlast := lastByte_withLastByte hne b
  constructor
  · rintro ⟨-, -, hzero, hle, hbytes⟩
    rw [hlast] at hzero hle hbytes
    rw [hlen] at hbytes
    refine ⟨hzero, hle, fun k hfrom hlt => ?_⟩
    rw [← getD_withLastByte_of_lt hlt b]
    exact hbytes k hfrom (by omega)
  · rintro ⟨hzero, hle, hbytes⟩
    refine ⟨by rwa [hlen], by rwa [hlen], by rwa [hlast], by rwa [hlast], fun k hfrom hlt => ?_⟩
    rw [hlen] at hfrom hlt
    rw [hlast] at hfrom
    by_cases hk : k < (pad x bs).length - 1
    · rw [getD_withLastByte_of_lt hk, hbytes k hfrom hk, hlast]
    · rw [lastByte, hlen, show k = (pad x bs).length - 1 by omega]

theorem getD_pad_of_lt {x : List Byte} {bs k : Nat} (h : k < x.length) : (pad x bs).getD k 0 = x.getD k 0 := by
  rw [pad, List.getD_append _ _ _ _ h]

/-- With a pad of two bytes or more, the byte before the last is the pad count and no other byte. -/
theorem getD_pad_penultimate_ne {x : List Byte} {bs : Nat} {b : Byte} (h1 : 1 ≤ bs) (h2 : bs ≤ 255)
    (hp : 2 ≤ padCount x.length bs) (hb : b.toNat ≠ padCount x.length bs) :
    (pad x bs).getD ((pad x bs).length - 2) 0 ≠ b := by
  obtain ⟨-, hp2⟩ := padCount_bounds (m := x.length) h1
  have hlen := length_pad_eq_add x bs
  rw [getD_pad_of_ge (by omega) (by omega)]
  rintro rfl
  rw [BitVec.toNat_ofNat, Nat.mod_eq_of_lt (by omega)] at hb
  exact hb rfl

/-- The bytes that a changed last byte claims, by cases on it and the pad count (43_padding_codec.md R207):
a count of 1 claims no other byte; a larger one claims the byte before the last, which is the pad count when
that is 2 or more, and else the end of the data. -/
theorem claimedBytes_iff {x : List Byte} {bs : Nat} {b : Byte} (h1 : 1 ≤ bs) (h2 : bs ≤ 255)
    (hzero : b.toNat ≠ 0) (hne : b.toNat ≠ padCount x.length bs) :
    (∀ k, (pad x bs).length - b.toNat ≤ k → k < (pad x bs).length - 1 → (pad x bs).getD k 0 = b) ↔
      (b.toNat < padCount x.length bs ∧ b.toNat = 1) ∨
        (padCount x.length bs < b.toNat ∧ padCount x.length bs = 1 ∧
          ∀ k, x.length - (b.toNat - 1) ≤ k → k < x.length → x.getD k 0 = b) := by
  obtain ⟨hp1, -⟩ := padCount_bounds (m := x.length) h1
  have hlen := length_pad_eq_add x bs
  constructor
  · intro hbytes
    by_cases hone : b.toNat = 1
    · exact .inl ⟨by omega, hone⟩
    · have hp : padCount x.length bs = 1 := by
        by_contra hp
        exact getD_pad_penultimate_ne h1 h2 (by omega) hne (hbytes _ (by omega) (by omega))
      refine .inr ⟨by omega, hp, fun k hfrom hlt => ?_⟩
      rw [← getD_pad_of_lt (bs := bs) hlt]
      exact hbytes k (by omega) (by omega)
  · rintro (⟨-, hone⟩ | ⟨-, hp, hbytes⟩) k hfrom hlt
    · omega
    · rw [getD_pad_of_lt (by omega)]
      exact hbytes k (by omega) (by omega)

/-- Settles O54. -/
theorem changedLastPadByte : Obligations.ChangedLastPadByte := by
  intro x bs b h1 h2 d p d' accepted hne
  have hp : padCount x.length bs = p := padCount_eq h1
  have hiff : PassesPadTests d' bs ↔ accepted := by
    refine (passesPadTests_withLastByte_pad h1 b).trans <|
      and_congr_right fun hzero => and_congr_right fun _ => ?_
    rw [claimedBytes_iff h1 h2 hzero (by rwa [hp]), hp]
  refine ⟨fun hacc => ?_, fun hnot => unpad_of_not_passes (mt hiff.1 hnot)⟩
  have hzero : b.toNat ≠ 0 := hacc.1
  exact (unpad_of_passes (hiff.2 hacc)).trans
    (congrArg Except.ok (stripPad_withLastByte (length_pad_ne_zero x h1) hzero))

/-! ### What PAD and UNPAD answer -/

theorem bsize_pos {s : State} (h : s.bsize ≠ 0) : 1 ≤ s.bsize.toNat :=
  Nat.pos_of_ne_zero fun e => h (BitVec.eq_of_toNat_eq e)

/-- PAD, its tests passed (43_padding_codec.md R210). -/
theorem exec_pad_fits {s : State} (hb : s.bsize ≠ 0)
    (hfit : paddedLength s.inLen.toNat s.bsize.toNat ≤ Config.bufCap) :
    exec .pad s = .next (finish (.ok, s.output (pad s.inputBytes s.bsize.toNat))) := by
  rw [exec_pad, if_neg hb, if_neg (by omega)]

/-- UNPAD of an input that `Unpad` accepts (43_padding_codec.md R212). -/
theorem exec_unpad_ok {s : State} {x : List Byte} (hb : s.bsize ≠ 0) (hcap : s.inLen.toNat ≤ Config.bufCap)
    (h : unpad s.inputBytes s.bsize.toNat = .ok x) : exec .unpad s = .next (finish (.ok, s.output x)) := by
  rw [exec_unpad, if_neg hb, if_neg (by omega), h]

/-- UNPAD of an input that `Unpad` refuses (43_padding_codec.md R212). -/
theorem exec_unpad_error {s : State} {e : Failure} (hb : s.bsize ≠ 0) (hcap : s.inLen.toNat ≤ Config.bufCap)
    (h : unpad s.inputBytes s.bsize.toNat = .error e) :
    exec .unpad s = .next (finish (raise .invalidPadding s)) := by
  obtain rfl := eq_invalidPadding_of_unpad h
  rw [exec_unpad, if_neg hb, if_neg (by omega), h]

/-- Settles O55. -/
theorem padCommandWritesPad : Obligations.PadCommandWritesPad := by
  intro s hb hfit hm
  have hlen : (pad s.inputBytes s.bsize.toNat).length ≤ Config.bufCap := by
    rw [length_pad _ (bsize_pos hb), length_inputBytes]
    exact hfit
  exact ⟨_, exec_pad_fits hb hfit, finish_output hm hlen⟩

/-- Settles O56. -/
theorem unpadCommandOutcomes : Obligations.UnpadCommandOutcomes := by
  intro s hb hcap hm
  constructor
  · intro x hx
    have hlen := length_le_of_unpad hx
    rw [Memory.length_readBytes] at hlen
    exact ⟨_, exec_unpad_ok hb hcap hx, finish_output hm (Nat.le_trans hlen hcap)⟩
  · intro e he
    exact ⟨_, exec_unpad_error hb hcap he, failsWith_raise .invalidPadding s⟩

/-- PAD makes the test on the capacity second (43_padding_codec.md R211). -/
theorem exec_pad_tooLong {s : State} (hb : s.bsize ≠ 0)
    (hlong : Config.bufCap < paddedLength s.inLen.toNat s.bsize.toNat) :
    exec .pad s = .next (finish (raise .allocationFailure s)) := by
  rw [exec_pad, if_neg hb, if_pos hlong]

/-- UNPAD makes the test on the capacity second (43_padding_codec.md R213). -/
theorem exec_unpad_tooLong {s : State} (hb : s.bsize ≠ 0) (hlong : Config.bufCap < s.inLen.toNat) :
    exec .unpad s = .next (finish (raise .allocationFailure s)) := by
  rw [exec_unpad, if_neg hb, if_pos hlong]

/-- The test on `BSIZE` comes first in both commands (43_padding_codec.md R209). -/
theorem exec_codec_bsizeZero {s : State} {i : Instr} (hi : i = .pad ∨ i = .unpad) (hb : s.bsize = 0) :
    exec i s = .next (finish (raise .illegalCommand s)) := by
  obtain rfl | rfl := hi
  · rw [exec_pad, if_pos hb]
  · rw [exec_unpad, if_pos hb]

/-- Settles O57. -/
theorem codecCommandFailures : Obligations.CodecCommandFailures :=
  fun s =>
    ⟨fun hb => ⟨⟨_, exec_codec_bsizeZero (.inl rfl) hb, failsWith_raise .illegalCommand s⟩,
        _, exec_codec_bsizeZero (.inr rfl) hb, failsWith_raise .illegalCommand s⟩,
      fun hb hlong => ⟨_, exec_pad_tooLong hb hlong, failsWith_raise .allocationFailure s⟩,
      fun hb hlong => ⟨_, exec_unpad_tooLong hb hlong, failsWith_raise .allocationFailure s⟩⟩

end Sys2Proof.Machine

/-! Housekeeping (44_housekeeping.md): what WIPE erases and keeps, ZEROIZE as WIPE without a context, the reset
state it leaves, and the statements about the two commands settled from that. -/

namespace Sys2Proof.Machine

/-! ### What WIPE and ZEROIZE answer -/

/-- A space that lists no byte holds 0 everywhere (44_housekeeping.md R220). -/
theorem byteAt_of_empty {s : State} {sp : Space} (h : s.mem sp = []) (a : Nat) : s.byteAt sp a = 0 := by
  rw [State.byteAt, h, Memory.read_nil]

theorem mem_finish_wipeBuffers (s : State) (sp : Space) : (finish (.ok, wipeBuffers s)).mem sp = [] := by
  cases sp <;> rfl

/-- The disposal of the context and the zero-fills do not meet: ZEROIZE is WIPE in the state without the
context (44_housekeeping.md R224). -/
theorem exec_zeroize_eq_exec_wipe (s : State) : exec .zeroize s = exec .wipe (dropContext s) := rfl

/-- Settles O58: the zero-fills reach the buffers and lengths only, and complete adds the result. -/
theorem wipeErasesTheBuffers : Obligations.WipeErasesTheBuffers :=
  fun s =>
    ⟨_, exec_wipe s, completed_finish (.ok, wipeBuffers s), fun sp => byteAt_of_empty (mem_finish_wipeBuffers s sp),
      rfl, rfl, rfl, ⟨rfl, rfl, rfl⟩, ⟨rfl, rfl, rfl⟩, ⟨rfl, rfl, rfl⟩⟩

/-- Settles O59: WIPE keeps the context it finds, and here it finds none. -/
theorem zeroizeErasesEverything : Obligations.ZeroizeErasesEverything := by
  intro s
  obtain ⟨t, hexec, hdone, hbytes, hkey, hin, hout, hctx, hconfig, hbus⟩ := wipeErasesTheBuffers (dropContext s)
  exact ⟨t, (exec_zeroize_eq_exec_wipe s).trans hexec, hdone, hbytes, hkey, hin, hout, hctx.ctxValid,
    hctx.ctxRounds, fun i _ _ => slot_of_rk_zero hctx.rk i, ⟨hconfig.rounds, hconfig.bsize, hconfig.irqEn⟩,
    ⟨hbus.hRdata, hbus.hErr, hbus.inputs⟩⟩

/-! ### ZEROIZE and the reset state -/

/-- The reset state but for the configuration registers, which are those of a given state, and for `DONE`, which
is still to be acknowledged (44_housekeeping.md R227); with the inputs to come. -/
def unacknowledgedReset (s : State) (xs : List Input) : State :=
  { State.reset with done := true, rounds := s.rounds, bsize := s.bsize, irqEn := s.irqEn, inputs := xs }

/-- A ZEROIZE in progress, accepted in `s`, with the inputs to come. -/
def zeroizing (s : State) (xs : List Input) : State :=
  { accept 0x00000009 s.noTransfer with inputs := xs }

theorem decode_cw_zeroizing (s : State) (xs : List Input) : decode (zeroizing s xs).cw = .ok .zeroize :=
  decode_encode .zeroize

theorem step_accept_zeroizing {s : State} {rest : List Input} (hb : s.busy = false)
    (hi : s.inputs = .write 0x00008 0x00000009 :: rest) : step s = .next (zeroizing s rest) :=
  acceptOfAnyWord s _ rest hb hi

/-- Of the state in which ZEROIZE was accepted only the configuration outlives the engine's turn. -/
theorem step_zeroizing (s : State) (rest : List Input) :
    step (zeroizing s (.engine :: rest)) = .next (unacknowledgedReset s rest) := by
  rw [step_turn_command rfl (decode_cw_zeroizing _ _) (.inr rfl), exec_zeroize]
  rfl

/-- The acknowledgement clears the last flag that differs from reset. -/
theorem step_acknowledge_reset (s : State) :
    step (unacknowledgedReset s [.write 0x0000C 0x00000002]) =
      .next { State.reset with rounds := s.rounds, bsize := s.bsize, irqEn := s.irqEn } :=
  acknowledgeClearsDoneOnly (unacknowledgedReset s _) 0x00000002 [] rfl rfl

/-- Settles O60: accept, the engine's turn, the acknowledgement. -/
theorem zeroizeThenAcknowledgeIsReset : Obligations.ZeroizeThenAcknowledgeIsReset := by
  intro s hb hi
  exact (runSteps_succ (n := 2) (step_accept_zeroizing hb hi)).trans <|
    (runSteps_succ (step_zeroizing s _)).trans <|
    (runSteps_one _).trans (step_acknowledge_reset s)

end Sys2Proof.Machine

/-! Exceptions (60_exceptions.md): every step answers, what a clock edge does at the entropy port, a request that
stays unanswered, how a command in progress ends, and the statements about failures and `irq` settled from that. -/

namespace Sys2Proof.Machine

/-! ### Every step answers -/

theorem exec_answers (i : Instr) (s : State) : ∃ t, exec i s = .next t := by
  obtain ⟨p, hp⟩ | ⟨-, hwait, -⟩ := exec_complete_or_wait i s
  · exact ⟨finish p, hp⟩
  · exact ⟨_, hwait⟩

theorem engineTurn_answers (s : State) : ∃ t, engineTurn s = .next t := by
  cases hb : s.busy with
  | false => exact ⟨s, engineTurn_idle hb⟩
  | true =>
    cases hd : decode s.cw with
    | error e => exact ⟨_, engineTurn_illegal hb hd⟩
    | ok i =>
      rw [engineTurn_command hb hd]
      exact exec_answers i s

/-- Settles O10, input by input: only at the engine's turn is there something to show. -/
theorem everyStepAnswersNext : Obligations.EveryStepAnswersNext := by
  intro s
  cases hi : s.inputs with
  | nil =>
    rw [step_of_nil hi]
    exact engineTurn_answers _
  | cons x rest =>
    rw [step_of_cons hi]
    cases x with
    | engine => exact engineTurn_answers _
    | read addr => exact ⟨_, rfl⟩
    | write addr w => exact ⟨_, rfl⟩
    | entropy valid fail data => exact ⟨_, rfl⟩
    | reset => exact ⟨_, rfl⟩

/-! ### The entropy port -/

theorem entReq_iff {s : State} : s.entReq = true ↔ s.phase = .waitEntropy := by
  simp [State.entReq]

theorem step_entropy {s : State} {valid fail : Bool} {data : BitVec 128} {rest : List Input}
    (hi : s.inputs = .entropy valid fail data :: rest) :
    step s = .next (entropyEdge valid fail data { s.noTransfer with inputs := rest }) :=
  step_of_cons hi

/-- Without a request the port's inputs are ignored (60_exceptions.md R268). -/
theorem entropyEdge_noRequest {s : State} {valid fail : Bool} {data : BitVec 128} (hr : s.entReq = false) :
    entropyEdge valid fail data s = s := by
  rw [entropyEdge, if_neg (ne_true_of_eq_false hr)]

/-- `ent_fail` wins over `ent_valid` (60_exceptions.md R268). -/
theorem entropyEdge_fail {s : State} {valid : Bool} {data : BitVec 128} (hr : s.entReq = true) :
    entropyEdge valid true data s = { s with phase := .finish } := by
  rw [entropyEdge, if_pos hr, if_pos rfl]

/-- An edge that does not answer changes nothing (60_exceptions.md R268). -/
theorem entropyEdge_noAnswer (s : State) (data : BitVec 128) : entropyEdge false false data s = s := by
  rw [entropyEdge, if_neg Bool.false_ne_true, if_neg Bool.false_ne_true, ite_self]

/-- Settles O40, with the lanes of the block on `ent_data`. -/
theorem entropyPortProtocol : Obligations.EntropyPortProtocol := by
  intro s valid fail data rest hi
  rw [step_entropy hi]
  refine ⟨fun hr => ?_, fun hr hf => ?_, fun _ hf hv => ?_, fun hr hf hv => ?_⟩
  · exact congrArg Host.Outcome.next (entropyEdge_noRequest hr)
  · subst hf
    exact congrArg Host.Outcome.next (entropyEdge_fail hr)
  · rw [hf, hv, entropyEdge_noAnswer]
  · subst hf hv
    have hp : State.phase { s.noTransfer with inputs := rest } = .waitEntropy := entReq_iff.1 hr
    exact ⟨blockOfEntData data, congrArg Host.Outcome.next (entropyEdge_valid hp data),
      fun k hk => toNat_getElem_blockOfEntData data hk⟩

/-! ### A request that is not answered -/

/-- The engine's turn while the request stands: the CBC_ENC passes its tests again and goes on waiting
(42_cbc_mode.md R183). -/
theorem step_turn_waiting {s : State} (h : s.Inv) (hp : s.phase = .waitEntropy)
    (ht : s.inputs = [] ∨ s.inputs.head? = some .engine) :
    step s = .next { s with hRdata := 0, hErr := false, inputs := s.inputs.tail } := by
  have hb : s.busy = true := h.busyPhase.2 (by simp [hp])
  obtain ⟨hcmd, hctx, hfit⟩ := h.drawing (.inl hp)
  have hexec := exec_cbcEnc_waits (s := { s.noTransfer with inputs := s.inputs.tail }) hctx hfit (.inr hp)
  rw [step_turn_command hb hcmd ht, hexec, ← hp]
  rfl

/-- While the request stands, a step that is neither an answer nor a reset changes the response ports only. -/
theorem step_unanswered {s : State} (h : s.Inv) (hp : s.phase = .waitEntropy)
    (hs : ∀ x ∈ s.inputs, x.silent = true) :
    ∃ d e, step s = .next { s with hRdata := d, hErr := e, inputs := s.inputs.tail } := by
  have hb : s.busy = true := h.busyPhase.2 (by simp [hp])
  cases hi : s.inputs with
  | nil => exact ⟨0, false, by rw [step_turn_waiting h hp (.inl hi), hi]⟩
  | cons x rest =>
    have hx : x.silent = true := hs x (by simp [hi])
    cases x with
    | read addr => exact step_transfer_busy hb rfl hi
    | write addr w => exact step_transfer_busy hb rfl hi
    | entropy valid fail data =>
      obtain ⟨rfl, rfl⟩ : valid = false ∧ fail = false := by simpa [Input.silent] using hx
      exact ⟨0, false, by rw [step_entropy hi, entropyEdge_noAnswer]; rfl⟩
    | reset => cases hx
    | engine => exact ⟨0, false, by rw [step_turn_waiting h hp (.inr (by rw [hi]; rfl)), hi]⟩

/-- Settles O12, by induction on the number of steps: each leaves the command waiting, under the invariant. -/
theorem unansweredRequestWaitsForEver : Obligations.UnansweredRequestWaitsForEver := by
  intro n
  induction n with
  | zero =>
    intro s h hp _
    exact ⟨s, runSteps_zero s, h.busyPhase.2 (by simp [hp]), entReq_iff.2 hp, rfl⟩
  | succ n ih =>
    intro s h hp hs
    obtain ⟨d, e, hstep⟩ := step_unanswered h hp hs
    rw [runSteps_succ hstep]
    exact ih _ (h.ports d e s.inputs.tail) hp fun x hx => hs x (List.mem_of_mem_tail hx)

/-! ### How a command in progress ends -/

/-- `BUSY` falls at reset or at the engine's turn, and at no transfer and no clock edge (20_memory.md R86). -/
theorem step_ends_cases {s t : State} (hb : s.busy = true) (hs : step s = .next t) (ht : t.busy = false) :
    (∃ rest, t = { State.reset with inputs := rest }) ∨
      ∃ rest, engineTurn { s.noTransfer with inputs := rest } = .next t := by
  obtain ⟨addr, rest, -, rfl⟩ | ⟨addr, w, rest, -, rfl⟩ | ⟨valid, fail, data, rest, -, rfl⟩ |
    ⟨rest, -, rfl⟩ | hturn := step_cases hs
  · exact absurd ht (ne_false_of_eq_true hb)
  · obtain ⟨e, he⟩ := hostWrite_busy (s := { s with inputs := rest }) hb addr w
    rw [he] at ht
    exact absurd ht (ne_false_of_eq_true hb)
  · obtain he | ⟨-, he | ⟨v, he⟩⟩ := entropyEdge_cases valid fail data { s.noTransfer with inputs := rest }
    all_goals
      rw [he] at ht
      exact absurd ht (ne_false_of_eq_true hb)
  · exact .inl ⟨rest, rfl⟩
  · exact .inr hturn

/-- A KEY_INIT that fails is a failure in the state without the key (40_key_schedule.md R136). -/
theorem failsWith_keyRefused (e : Failure) (s : State) :
    FailsWith e { s with keybuf := [], keyLen := 0 } (finish (dropKey (raise e s))) :=
  failsWith_raise e { s with keybuf := [], keyLen := 0 }

/-- A command that ends with a failure fails in the state it started from, KEY_INIT without the key. -/
theorem CommandEnds.failsWith {s t : State} {i : Instr} {e : Failure} (h : CommandEnds s i t)
    (hb : s.busy = true) (ht : t.busy = false) (he : t.err = .fail e) :
    (i ≠ .keyInit ∧ FailsWith e s t) ∨
      (i = .keyInit ∧ FailsWith e { s with keybuf := [], keyLen := 0 } t) := by
  cases h with
  | failed e' hi => cases he; exact .inl ⟨hi, failsWith_raise e s⟩
  | keyRefused e' => cases he; exact .inr ⟨rfl, failsWith_keyRefused e s⟩
  | waits _ _ _ => exact absurd ht (ne_false_of_eq_true hb)
  | wrote v _ => cases he
  | contextMade _ _ => cases he
  | wiped => cases he
  | zeroized => cases he

theorem engineTurn_failsWith {s t : State} {e : Failure} (hb : s.busy = true) (hs : engineTurn s = .next t)
    (ht : t.busy = false) (he : t.err = .fail e) :
    (decode s.cw ≠ .ok .keyInit ∧ FailsWith e s t) ∨
      (decode s.cw = .ok .keyInit ∧ FailsWith e { s with keybuf := [], keyLen := 0 } t) := by
  cases hd : decode s.cw with
  | error _ =>
    rw [engineTurn_illegal hb hd] at hs
    cases hs
    cases he
    exact .inl ⟨by simp, failsWith_raise _ s⟩
  | ok i =>
    rw [engineTurn_command hb hd] at hs
    simpa using (exec_ends hs).failsWith hb ht he

/-- What a failure leaves, seen from a state that differs from the one it is raised in by the key and the bus
only (60_exceptions.md R256). -/
theorem FailsWith.effects {e : Failure} {s t : State} {keybuf : Memory} {keyLen : BitVec 8} {d : Word} {x : Bool}
    {xs : List Input}
    (h : FailsWith e { s with keybuf := keybuf, keyLen := keyLen, hRdata := d, hErr := x, inputs := xs } t) :
    t.done = true ∧ NoOutput t ∧ WorkZero t ∧ KeepsContext s t ∧ KeepsConfig s t ∧ KeepsData s t := by
  obtain ⟨completed, noOutput, ⟨rk, ctxRounds, ctxValid⟩, ⟨rounds, bsize, irqEn⟩, -, ⟨inLen, iv, ibuf⟩, -⟩ := h
  exact ⟨completed.done, noOutput, completed.work, ⟨rk, ctxRounds, ctxValid⟩, ⟨rounds, bsize, irqEn⟩,
    ⟨inLen, iv, ibuf⟩⟩

/-- Settles O16: reset ends no command with a failure, and at the engine's turn the failure is raised in the
state of that turn, which for KEY_INIT has given up its key. -/
theorem failedCommandEffects : Obligations.FailedCommandEffects := by
  intro s t e hb hs ht he
  obtain ⟨rest, rfl⟩ | ⟨rest, hturn⟩ := step_ends_cases hb hs ht
  · cases he
  · obtain ⟨hcmd, hfail⟩ | ⟨hcmd, hfail⟩ := engineTurn_failsWith (s := { s.noTransfer with inputs := rest }) hb hturn ht he
    · obtain ⟨hdone, hout, hwork, hctx, hconfig, hdata⟩ := hfail.effects (s := s)
      obtain ⟨keyLen, keybuf⟩ := hfail.frame.key
      exact ⟨hdone, hout, hwork, hctx, hconfig, hdata, fun _ => ⟨keyLen, keybuf⟩, fun hk => absurd hk hcmd⟩
    · obtain ⟨hdone, hout, hwork, hctx, hconfig, hdata⟩ := hfail.effects (s := s)
      obtain ⟨keyLen, keybuf⟩ := hfail.frame.key
      exact ⟨hdone, hout, hwork, hctx, hconfig, hdata, fun hk => absurd hcmd hk, fun _ => ⟨keyLen, keybuf⟩⟩

/-! ### The line `irq` -/

theorem KeepsConfig.of_finish (p : Result × State) : KeepsConfig p.2 (finish p) := by
  constructor <;> simp

/-- No command writes a configuration register (44_housekeeping.md R223). -/
theorem CommandEnds.keepsConfig {s t : State} {i : Instr} (h : CommandEnds s i t) : KeepsConfig s t := by
  cases h with
  | failed e _ => exact .of_finish (raise e s)
  | wrote v _ => exact ⟨rfl, rfl, rfl⟩
  | waits _ _ _ => exact ⟨rfl, rfl, rfl⟩
  | keyRefused e => exact .of_finish_dropKey (raise e s)
  | contextMade _ _ => exact ⟨rfl, rfl, rfl⟩
  | wiped => exact ⟨rfl, rfl, rfl⟩
  | zeroized => exact ⟨rfl, rfl, rfl⟩

theorem engineTurn_keepsConfig {s t : State} (h : engineTurn s = .next t) : KeepsConfig s t := by
  obtain ⟨-, rfl⟩ | ⟨-, rfl⟩ | ⟨i, -, -, he⟩ := engineTurn_cases h
  · exact ⟨rfl, rfl, rfl⟩
  · exact .of_finish (raise .illegalCommand s)
  · exact he.keepsConfig

theorem irq_of_done {s : State} (h : s.done = true) : s.irq = s.irqEn := by
  rw [State.irq, h, Bool.and_true]

theorem irq_of_not_done {s : State} (h : s.done = false) : s.irq = false := by
  rw [State.irq, h, Bool.and_false]

/-- Settles O26, `irq` being `IRQ_EN` and `DONE`: complete keeps the one and sets the other, the acknowledgement
and accept clear `DONE`, and the write to `IRQ_EN` leaves `DONE` alone. -/
theorem irqFollowsCompletionAndAcknowledgement : Obligations.IrqFollowsCompletionAndAcknowledgement := by
  intro s t w rest hs
  refine ⟨fun hb ht hdone => ?_, fun hb hi hw => ?_, fun hb hi => ?_, fun hb hi => ?_⟩
  · rw [irq_of_done hdone]
    obtain ⟨rest, rfl⟩ | ⟨rest, hturn⟩ := step_ends_cases hb hs ht
    · cases hdone
    · exact (engineTurn_keepsConfig hturn).irqEn
  · cases hs.symm.trans (acknowledgeClearsDoneOnly s w rest hb hi)
    exact irq_of_not_done (if_pos hw)
  · cases hs.symm.trans (acceptOfAnyWord s w rest hb hi)
    exact irq_of_not_done rfl
  · have htarget : targetAt 0x00024 = some (.reg .irqEn) := targetAt_reg.2 rfl
    cases hs.symm.trans (step_write_idle hb hi htarget)
    have hbit : w.getLsbD 0 = decide (w.toNat % 2 = 1) := by
      rw [Bool.eq_iff_iff, getLsbD_zero_iff, decide_eq_true_iff]
    exact congrArg (· && s.done) hbit

end Sys2Proof.Machine

/-! Reset and hazards (70_reset_and_hazards.md): what the reset input leaves of a state, and the statement about
reset from any state settled from that. -/

namespace Sys2Proof.Machine

/-- Nothing of CORE's state survives the reset input, a command in progress included; only what the environment
does afterwards stays (70_reset_and_hazards.md R280, R281). -/
theorem takeInput_reset (s : State) : takeInput .reset s = .next { State.reset with inputs := s.inputs } := rfl

/-- Settles O14: a step takes its next input whatever `BUSY` and `PHASE` are, so a command in progress gets no
turn before the reset. -/
theorem resetFromAnyState : Obligations.ResetFromAnyState := by
  intro s rest hi
  rw [step_of_cons hi, takeInput_reset]

end Sys2Proof.Machine
